-- ==== Sys2Proof/Word.lean ====
section
/-! DEFINITION. The word types of the bfi packed-code engine: an instruction byte, its two fields, and the four
cell widths. Notation of spec/00_scope.md: bits are numbered from 0 and every number is unsigned.
A cell's value, in `[0, 2^W)` (R7, R157), is a natural number: the width is a construction parameter, and every
operation on a cell reduces modulo `2^W` (assumption 17). -/

namespace Sys2Proof

/-- One packed byte, and one element of an I/O channel (R32, R45). -/
abbrev Byte := BitVec 8

/-- The kind selector `K = b[7:6]` (R45). -/
abbrev Code := BitVec 2

/-- The payload `N = b[5:0]`, the repeat count of a repeatable instruction (R45, R48). -/
abbrev Count := BitVec 6

/-- The cell width `W`, "cell width ∈ {8,16,32,64}" (R5). -/
inductive Width where
  | w8
  | w16
  | w32
  | w64
deriving DecidableEq, Repr

/-- The number of bits of a width. -/
def Width.bits : Width → Nat
  | .w8 => 8
  | .w16 => 16
  | .w32 => 32
  | .w64 => 64

/-- The cell modulus `2^W` (R154: "only the modulus differs"). -/
def Width.modulus (w : Width) : Nat := 2 ^ w.bits

end Sys2Proof
end

