-- ==== Sys2Proof/Syntax.lean ====
section
/-! DEFINITION. The eight instruction kinds in their two families (R46), the source tokens (R52), and the packed
instructions, one constructor per row of spec/opcode_table.json. -/

namespace Sys2Proof

/-- The repeatable family: move-right, move-left, increment, decrement (spec/00_scope.md, glossary). -/
inductive RepKind where
  | mvr
  | mvl
  | inc
  | dec
deriving DecidableEq, Repr

/-- The non-repeatable family: output, input, loop-open, loop-close. -/
inductive NonRepKind where
  | out
  | inp
  | lopen
  | lclose
deriving DecidableEq, Repr

/-- One of the eight instruction kinds. -/
inductive Kind where
  | rep (k : RepKind)
  | nonrep (k : NonRepKind)
deriving DecidableEq, Repr

/-- The eight source tokens `> < + - . , [ ]`, as "an 8-valued enumeration" (R52, R72). -/
inductive Token where
  | gt
  | lt
  | plus
  | minus
  | dot
  | comma
  | lbracket
  | rbracket
deriving DecidableEq, Repr

/-- A packed instruction (R53). A repeatable instruction carries its 6-bit repeat count (R48); a non-repeatable one
has no operand. `IN` is `inp`, since `in` is a word of Lean. -/
inductive Instr where
  | out
  | inp
  | lopen
  | lclose
  | mvr (n : Count)
  | mvl (n : Count)
  | inc (n : Count)
  | dec (n : Count)
deriving DecidableEq, Repr

end Sys2Proof
end

