-- ==== Sys2Proof/Config.lean ====
section
/-! DEFINITION. The construction parameters of one engine instance (R5, R6, R7, R17) and the one value the spec leaves
open for this hardware, `P_MAX` (R7, decision D15). -/

namespace Sys2Proof

/-- One column of `CODE_MAP`: the kind at each 2-bit code (R47, R61: "each indexed by K"). -/
structure Column (α : Type) where
  c00 : α
  c01 : α
  c10 : α
  c11 : α
deriving DecidableEq, Repr

/-- `CODE_MAP`: the columns `REP` and `NONREP` (R47, R61). -/
structure CodeMap where
  rep : Column RepKind
  nonrep : Column NonRepKind
deriving DecidableEq, Repr

/-- `INPUT_FAIL_CELL`: what a failed input leaves in the cell (R130). -/
inductive InputFailCell where
  | unchanged
  | zeroed
deriving DecidableEq, Repr

/-- The configuration of one instance, "fixed at construction and never written afterwards" (R17), with the named
parameters of R7. The RLE capacity `B` is given per invocation and stands in the load. -/
structure EngineConfig where
  /-- `W` (R5). -/
  width : Width
  /-- `L` (R6). -/
  tapeLen : Nat
  /-- `CODE_MAP` (R47). -/
  codeMap : CodeMap
  /-- `INPUT_FAIL_CELL` (R130). -/
  inputFailCell : InputFailCell
  /-- `P_MAX` (R7, R86). -/
  pMax : Nat
deriving DecidableEq, Repr

/-- `P_MAX` of this hardware: OPEN in the spec (R7, decision D15), so a constant with no body (assumption 3).
DESIGN CHOICE: the value of the parameter in `State.reset`. -/
opaque Config.pMax : Nat

/-- The default cell width, 8 (R5, R8). -/
def Config.defaultWidth : Width := .w8

/-- The default tape length, 3000 (R6, R8). -/
def Config.defaultTapeLen : Nat := 3000

/-- `INPUT_FAIL_CELL` of this hardware: "`UNCHANGED`, the value this hardware takes" (R130). -/
def Config.defaultInputFailCell : InputFailCell := .unchanged

end Sys2Proof
end

