-- ==== Sys2Proof/WellFormed.lean ====
section
/-! DEFINITION. The checks a term must pass: a repeat count in `[1, 63]` (R48), a code map made of two bijections
(R47), and a legal configuration (R5, R6). -/

namespace Sys2Proof

/-- A repeatable instruction has a repeat count in `[1, 63]` (R48): the 6-bit count is not 0. -/
def Instr.wf : Instr → Bool
  | .out => true
  | .inp => true
  | .lopen => true
  | .lclose => true
  | .mvr n => n != 0
  | .mvl n => n != 0
  | .inc n => n != 0
  | .dec n => n != 0

/-- The four entries of a column differ, so the column is a bijection from the four codes to the four kinds. -/
abbrev Column.wf {α : Type} (c : Column α) : Prop :=
  c.c00 ≠ c.c01 ∧ c.c00 ≠ c.c10 ∧ c.c00 ≠ c.c11 ∧ c.c01 ≠ c.c10 ∧ c.c01 ≠ c.c11 ∧ c.c10 ≠ c.c11

/-- `CODE_MAP` "must be a pair of bijections from the four kinds of each family onto {00, 01, 10, 11}" (R47). -/
abbrev CodeMap.wf (m : CodeMap) : Prop := m.rep.wf ∧ m.nonrep.wf

/-- A configuration construction accepts: `L ≥ 1` (R6) and a legal code map (R47). Every `Width` is legal (R5). -/
abbrev EngineConfig.wf (c : EngineConfig) : Prop := 1 ≤ c.tapeLen ∧ c.codeMap.wf

end Sys2Proof
end

