-- ==== Sys2Proof/Decode.lean ====
section
/-! DEFINITION. The Command Codec (spec/40_codec.md): the field extractor R60, the classifier R61, the byte builder
R62 with its refused calls R63; this hardware's `CODE_MAP` (R47); and the kinds of the source tokens (R52). -/

namespace Sys2Proof

/-! ### The tables -/

/-- `CODE_MAP` of this hardware (R47, decision D1): each family's kinds in listing order. -/
def CodeMap.default : CodeMap where
  rep := ⟨.mvr, .mvl, .inc, .dec⟩
  nonrep := ⟨.out, .inp, .lopen, .lclose⟩

/-- The entry of a column at a code. -/
def Column.get {α : Type} (c : Column α) (K : Code) : α :=
  match K.toNat with
  | 0 => c.c00
  | 1 => c.c01
  | 2 => c.c10
  | _ => c.c11

/-- The code of a kind in a column: the code whose entry it is. On a column that is a bijection (R47) this is the
inverse of `Column.get`; on another, which construction refuses, a kind with no entry gets `11` (DESIGN CHOICE,
assumption 30). -/
def Column.codeOf {α : Type} [DecidableEq α] (c : Column α) (k : α) : Code :=
  if c.c00 = k then 0 else if c.c01 = k then 1 else if c.c10 = k then 2 else 3

/-- The kind of each source token (R52). -/
def Token.kind : Token → Kind
  | .gt => .rep .mvr
  | .lt => .rep .mvl
  | .plus => .rep .inc
  | .minus => .rep .dec
  | .dot => .nonrep .out
  | .comma => .nonrep .inp
  | .lbracket => .nonrep .lopen
  | .rbracket => .nonrep .lclose

/-- The ASCII byte of each token (R72). PRESUMED: the spec marks these as general knowledge, and no rule reads
them. -/
def Token.ascii : Token → Byte
  | .gt => 0x3E
  | .lt => 0x3C
  | .plus => 0x2B
  | .minus => 0x2D
  | .dot => 0x2E
  | .comma => 0x2C
  | .lbracket => 0x5B
  | .rbracket => 0x5D

/-! ### Instructions as a kind and a count -/

/-- The kind of an instruction. -/
def Instr.kind : Instr → Kind
  | .out => .nonrep .out
  | .inp => .nonrep .inp
  | .lopen => .nonrep .lopen
  | .lclose => .nonrep .lclose
  | .mvr _ => .rep .mvr
  | .mvl _ => .rep .mvl
  | .inc _ => .rep .inc
  | .dec _ => .rep .dec

/-- The count of an instruction, 0 for the non-repeatable family (R61). -/
def Instr.count : Instr → Count
  | .out => 0
  | .inp => 0
  | .lopen => 0
  | .lclose => 0
  | .mvr n => n
  | .mvl n => n
  | .inc n => n
  | .dec n => n

/-- The instruction of a kind and a count, the two outputs `op` and `n` of R61. -/
def Instr.ofOp : Kind → Count → Instr
  | .rep .mvr, n => .mvr n
  | .rep .mvl, n => .mvl n
  | .rep .inc, n => .inc n
  | .rep .dec, n => .dec n
  | .nonrep .out, _ => .out
  | .nonrep .inp, _ => .inp
  | .nonrep .lopen, _ => .lopen
  | .nonrep .lclose, _ => .lclose

/-! ### Decoding -/

/-- `decode` of R60: `K = b[7:6]`, `N = b[5:0]`. -/
def decodeFields (b : Byte) : Code × Count := (b.extractLsb' 6 2, b.extractLsb' 0 6)

/-- `classify` of R61: the payload selects the family (R46), the code the kind within it. -/
def classify (m : CodeMap) (K : Code) (N : Count) : Kind × Count :=
  if N ≠ 0 then (.rep (m.rep.get K), N) else (.nonrep (m.nonrep.get K), 0)

/-- The instruction a byte stands for: `classify(decode(b))` (R103). Total on all 256 bytes (R50). -/
def decode (m : CodeMap) (b : Byte) : Instr :=
  Instr.ofOp (classify m (decodeFields b).1 (decodeFields b).2).1
    (classify m (decodeFields b).1 (decodeFields b).2).2

/-- Why no instruction can be read from a byte sequence. No byte is rejected (R50). -/
inductive DecodeReject where
  /-- The sequence holds no byte. -/
  | noByte
deriving DecidableEq, Repr

/-- Read one instruction from a byte sequence: every instruction is one byte (R45). -/
def decodeBytes (m : CodeMap) : List Byte → Except DecodeReject (Instr × List Byte)
  | [] => .error .noByte
  | b :: bs => .ok (decode m b, bs)

/-- The instruction at index `i` of a program, if `i` is in `[0, P)`. -/
def instrAt (m : CodeMap) (prog : List Byte) (i : Nat) : Option Instr := (prog[i]?).map (decode m)

/-- The instruction of an opcode-table word, under this hardware's code map. -/
def decodeTableWord (nbits w : Nat) : Option Instr :=
  if 8 ≤ nbits then some (decode CodeMap.default (BitVec.ofNat 8 w)) else none

/-! ### Encoding -/

/-- `code(kind)`: the kind's code under `CODE_MAP` (R62). -/
def CodeMap.code (m : CodeMap) : Kind → Code
  | .rep k => m.rep.codeOf k
  | .nonrep k => m.nonrep.codeOf k

/-- `encode` of R62 at its 6-bit port: the count is ignored and the payload 0 for the non-repeatable family. -/
def encodeFields (m : CodeMap) (k : Kind) (count : Count) : Byte :=
  match k with
  | .rep r => m.code (.rep r) ++ count
  | .nonrep r => m.code (.nonrep r) ++ (0 : Count)

/-- The calls of `encode` that break its caller contract (R63). -/
inductive EncodeReject where
  /-- A repeatable kind with a count above 63, which the 6-bit port cannot carry. -/
  | countAbove63
  /-- A repeatable kind with count 0, whose byte would be a non-repeatable instruction. -/
  | countZero
deriving DecidableEq, Repr

/-- `encode` with its caller contract: the two violations of R63 are refused. -/
def encodeCall (m : CodeMap) (k : Kind) (count : Nat) : Except EncodeReject Byte :=
  match k with
  | .nonrep r => .ok (encodeFields m (.nonrep r) 0)
  | .rep r =>
    if 63 < count then .error .countAbove63
    else if count = 0 then .error .countZero
    else .ok (encodeFields m (.rep r) (BitVec.ofNat 6 count))

/-- The byte of an instruction. DESIGN CHOICE (assumption 30): a repeatable instruction with count 0, which is ill-formed
(R48), is not refused here as its call of `encodeCall` is (R63, D26); its byte is the code and six zeros, the
non-repeatable instruction of the same code. -/
def encode (m : CodeMap) (i : Instr) : Byte := encodeFields m i.kind i.count

end Sys2Proof
end

