-- ==== Sys2Proof/Machine/State.lean ====
section
/-! DEFINITION. The state of one engine instance (spec/10_state.md R11 to R23), as plain data, with the reasons a step
can stop. INVENTORY.md, under State, lists the rule and the reset value of every field. -/

namespace Sys2Proof.Machine

/-- The tape: `(index, value)` pairs, indexes strictly rising, no value 0; an unlisted cell holds 0, its value at
construction and reset (R23). -/
abbrev Memory := List (Nat × Nat)

/-- The jump table: `(index, paired index)` pairs, indexes strictly rising (R16). -/
abbrev Table := List (Nat × Nat)

/-- The five faults of R160, as the run status records them. -/
inductive FaultCode where
  | invalidCellWidth
  | unmatchedLoopOpen
  | unmatchedLoopClose
  | inputError
  | outputError
deriving DecidableEq, Repr

/-- The run status register (R18). -/
inductive Status where
  /-- No run in progress. -/
  | idle
  | running
  /-- The last run reached `pc = P`. -/
  | done
  /-- The last run stopped at a fault, with its recorded information. -/
  | fault (code : FaultCode) (info : Nat)
deriving DecidableEq, Repr

/-- The host's answer to one `InRead` call (R171, R175). -/
inductive InAnswer where
  | byte (b : Byte)
  /-- A channel error. -/
  | error
  /-- The end of the stream, which "returns `err`" (R171). -/
  | endOfStream
deriving DecidableEq, Repr

/-- The host's answer to one `OutWrite` call (R172, R175). -/
inductive OutAnswer where
  | ok
  /-- A write failure. -/
  | error
deriving DecidableEq, Repr

/-- The Run-Length Encoder during a load (R19, R71). -/
structure RleState where
  /-- The token source from its head on; its end is `EOI`, which is sticky and never consumed (R76). -/
  src : List Token
  /-- `pend_kind` (R19). -/
  pendKind : Option RepKind
  /-- `pend_cnt` (R19). -/
  pendCnt : Nat
  /-- `wr`, the number of bytes written in this invocation (R19). -/
  wr : Nat
  /-- The bytes in the caller's buffer, by position (R71, `buf_wr`). -/
  buf : List Byte
  /-- The capacity `B` of this invocation's buffer (R71, `buf_cap`). -/
  cap : Nat
  /-- The capacities of the invocations to come; when none is left, `cap` serves again (assumption 13). -/
  laterCaps : List Nat
deriving DecidableEq, Repr

/-- The Jump-Pairing Unit during its pass (R20). -/
structure JpuState where
  /-- The pushdown stack of loop-open indices, its top first. -/
  stack : List Nat
  /-- The scan index. -/
  scan : Nat
deriving DecidableEq, Repr

/-- Where the instance stands in the boot order of R187. -/
inductive Phase where
  /-- Constructed, no load begun. -/
  | constructed
  /-- A load is in its RLE part. -/
  | compiling (r : RleState)
  /-- A load is in its JPU part. -/
  | pairing (j : JpuState)
  /-- The load has succeeded: runs and resets may follow. -/
  | loaded
deriving DecidableEq, Repr

/-- An operation the host issues to an instance (R173). Construction is not one: it creates the instance. Inspection
is a read of the state (R178) and needs no step. -/
inductive HostOp where
  /-- `load(source)`, with the capacity of the RLE's first buffer and of the later ones (R86). -/
  | load (src : List Token) (cap : Nat) (laterCaps : List Nat)
  /-- `run()` (R100). -/
  | run
  /-- `reset()` (R186). -/
  | reset
deriving DecidableEq, Repr

/-- The state of one engine instance (R11, R17 to R20), with the host's side of its ports. -/
structure State where
  /-- `W`, `L`, `CODE_MAP` and the other parameters (R17, R7). -/
  cfg : EngineConfig
  /-- The tape's cells (R11, R30). -/
  tape : Memory
  /-- `ptr` (R13). -/
  ptr : Nat
  /-- `pc` (R14). -/
  pc : Nat
  /-- `prog`; its length is `P` (R15). -/
  prog : List Byte
  /-- `jt` (R16). -/
  jt : Table
  /-- `status` (R18). -/
  status : Status
  /-- The boot order, with the RLE state and the JPU state of a load (R19, R20, R187). -/
  phase : Phase
  /-- The operation the host has issued and the engine has not taken (R173). -/
  cmd : Option HostOp
  /-- The input channel: the host's answers to the coming `InRead` calls (R171). -/
  inAnswers : List InAnswer
  /-- The output channel: the host's answers to the coming `OutWrite` calls (R172). -/
  outAnswers : List OutAnswer
  /-- The output stream, the values of the successful `OutWrite` calls in order (R39). -/
  outStream : List Byte
deriving DecidableEq, Repr

/-- Why the machine stops with a fault. -/
inductive Fault where
  /-- Construction with a width that is none of the four (R155, R185). No instance exists afterwards (R161), so there is
  no next state: exact. -/
  | invalidCellWidth (requested : Nat)
  /-- A load whose pairing pass ends with an open loop, the index of the last one (R94). The program is rejected in full
  and no VM state exists afterwards (R96): exact. -/
  | unmatchedLoopOpen (index : Nat)
  /-- A load whose pairing pass meets a loop-close with nothing open, at this index (R92). As above: exact. -/
  | unmatchedLoopClose (index : Nat)
  /-- An access to a cell at an index outside `[0, L)`, raised by every instruction that reads or writes a cell. R13
  rules such a pointer out and no step from reset leads to one: safe. -/
  | tapeIndexOutOfRange (ptr : Nat)
  /-- A fetch with `pc` above `P`, raised by the run step. R14 rules it out and no step from reset leads to it: safe. -/
  | pcOutOfRange (pc : Nat)
deriving DecidableEq, Repr

/-- Why the model gives a step no meaning. -/
inductive Refusal where
  /-- An instruction that has no meaning in the model; no arm of `exec` answers so. Safe. -/
  | notModelled (mnemonic : String)
  /-- A `load`, `run` or `reset` issued while a run is in progress (R173, decision D23). Safe. -/
  | operationDuringRun
  /-- An operation issued while a load is in progress (R10, R193; assumption 9). Safe. -/
  | operationDuringLoad
  /-- A `run` or `reset` before a load has succeeded (R100, R187, R193; assumption 14). Safe. -/
  | notLoaded
  /-- A second `load` on one instance (R187; assumption 14). Safe. -/
  | alreadyLoaded
  /-- An RLE invocation with a buffer of capacity 0 (R75, decision D12). Safe. -/
  | zeroCapacity
  /-- A program longer than `P_MAX` (R86, decision D15). Safe. -/
  | programTooLong
  /-- Construction with `L = 0` (R6, decision D27). Safe. -/
  | zeroTapeLength
  /-- Construction with a code map that is no pair of bijections (R47; assumption 16). Safe. -/
  | codeMapNotBijective
  /-- A loop instruction that takes its branch at an index with no jump-table entry: "the model gives it no value"
  (R16, decision D17). A loaded program has none (R97), so no step from reset leads here: safe. -/
  | noJumpEntry (pc : Nat)
  /-- An inspection while a load is in progress (R178; assumption 20). Safe. -/
  | inspectDuringLoad
deriving DecidableEq, Repr

/-- The state construction leaves (R185, R23): every cell 0, `ptr` and `pc` 0, `IDLE`, and nothing loaded. -/
def State.initial (c : EngineConfig) : State where
  cfg := c
  tape := []
  ptr := 0
  pc := 0
  prog := []
  jt := []
  status := .idle
  phase := .constructed
  cmd := none
  inAnswers := []
  outAnswers := []
  outStream := []

/-- The configuration of `State.reset`: the defaults of R5, R6 and R8, and this hardware's parameters (assumptions 1
to 4). -/
def EngineConfig.default : EngineConfig where
  width := Config.defaultWidth
  tapeLen := Config.defaultTapeLen
  codeMap := CodeMap.default
  inputFailCell := Config.defaultInputFailCell
  pMax := Config.pMax

/-- The machine at its start: a freshly constructed engine with the default configuration and no program
(assumption 5). -/
def State.reset : State := State.initial EngineConfig.default

end Sys2Proof.Machine
end

