-- ==== Sys2Proof/Machine/Wau.lean ====
section
/-! DEFINITION. The Wrap-Around Arithmetic Unit (spec/48_wrap_arith.md R145 to R153): each function is the spec's
formula, formed exactly and then reduced. -/

namespace Sys2Proof.Machine

/-- `wau_cell_add(c, n) = (c + n) mod 2^W` (R146). -/
def wauCellAdd (w : Width) (c : Nat) (n : Nat) : Nat := (c + n) % w.modulus

/-- `wau_cell_sub(c, n) = (c - n) mod 2^W`, "the mathematical remainder in [0, 2^W)" (R147). -/
def wauCellSub (w : Width) (c : Nat) (n : Nat) : Nat :=
  (((c : Int) - (n : Int)) % (w.modulus : Int)).toNat

/-- `wau_zero() = 0` (R148). -/
def wauZero : Nat := 0

/-- `wau_ptr_add(p, n) = (p + n) mod L` (R150). -/
def wauPtrAdd (L p n : Nat) : Nat := (p + n) % L

/-- `wau_ptr_sub(p, n) = (p - n) mod L`, "the mathematical remainder in [0, L)" (R151). -/
def wauPtrSub (L p n : Nat) : Nat := (((p : Int) - (n : Int)) % (L : Int)).toNat

/-- `wau_trunc8(c) = c mod 2^8` (R152). -/
def wauTrunc8 (c : Nat) : Byte := BitVec.ofNat 8 c

/-- `wau_zext8(x) = zext_W(x)` (R153): the byte's value, which every legal width holds. -/
def wauZext8 (x : Byte) : Nat := x.toNat

end Sys2Proof.Machine
end

