-- ==== Sys2Proof/Machine/Flags.lean ====
section
/-! DEFINITION. The engine "has no status flags or condition codes" (R21). The one condition an instruction tests is
whether the current cell is zero. -/

namespace Sys2Proof.Machine

/-- `wau_is_zero(c)`: all `W` bits of the cell are 0, never a truncated value (R149). -/
def wauIsZero (c : Nat) : Bool := c == 0

end Sys2Proof.Machine
end

