-- ==== Sys2Proof/Machine/Operands.lean ====
section
/-! DEFINITION. Operands: the explicit repeat count of a repeatable instruction (R48), and the three lists an implicit
operand is read from: the tape at `ptr`, the program and the jump table at `pc` (R30, R31). -/

namespace Sys2Proof.Machine

/-- The repeat count as a number, "used as is, with no sign extension, scaling or bias" (R48). -/
def countOf (n : Count) : Nat := n.toNat

/-- The value of the cell at index `p`. -/
def Memory.read : Memory → Nat → Nat
  | [], _ => 0
  | (q, v) :: m, p => if p = q then v else Memory.read m p

/-- Set the cell at index `p`, keeping the canonical form: a cell set to 0 is not listed. -/
def Memory.write : Memory → Nat → Nat → Memory
  | [], p, v => if v = 0 then [] else [(p, v)]
  | (q, u) :: m, p, v =>
    if p = q then (if v = 0 then Memory.write m p v else (p, v) :: m)
    else if p < q ∧ v ≠ 0 then (p, v) :: (q, u) :: m
    else (q, u) :: Memory.write m p v

/-- The canonical form of a tape of `L` cells of width `w`: indexes strictly rising and below `L`, no value 0, every
value in `[0, 2^W)` (R7, R30). -/
abbrev Memory.wf (w : Width) (L : Nat) (m : Memory) : Prop :=
  m.Pairwise (fun a b => a.1 < b.1) ∧ ∀ c ∈ m, c.1 < L ∧ c.2 ≠ 0 ∧ c.2 < w.modulus

/-- The jump-table entry at an index, if it has one (R16). -/
def Table.lookup : Table → Nat → Option Nat
  | [], _ => none
  | (k, j) :: t, i => if i = k then some j else Table.lookup t i

/-- `jt[i] <- j`. -/
def Table.set : Table → Nat → Nat → Table
  | [], i, j => [(i, j)]
  | (k, u) :: t, i, j =>
    if i = k then (i, j) :: t
    else if i < k then (i, j) :: (k, u) :: t
    else (k, u) :: Table.set t i j

/-- The canonical form of a jump table: indexes strictly rising. -/
abbrev Table.wf (t : Table) : Prop := t.Pairwise (fun a b => a.1 < b.1)

/-- `MemRead(ptr)`: the whole cell at the pointer (R31). -/
def State.cell (s : State) : Nat := Memory.read s.tape s.ptr

/-- `prog[pc]`, the byte the fetch reads (R102). -/
def State.fetch (s : State) : Option Byte := s.prog[s.pc]?

/-- `jt[pc]`, read by `LOPEN` and `LCLOSE` only (R16, R104). -/
def State.jumpEntry (s : State) : Option Nat := Table.lookup s.jt s.pc

end Sys2Proof.Machine
end

