-- ==== Sys2Proof/Machine/Ops.lean ====
section
/-! DEFINITION. The operations the instructions share: advancing `pc`, the tape write (R31), the channel calls (R171,
R172), and raising a run-time fault (R163). There is no return from a fault (R165): "a fresh `run`" is the host's
operation `startRun` of Machine/HostOps.lean. -/

namespace Sys2Proof.Machine

/-- The outcome of a step of this machine. -/
abbrev Result := Host.Outcome State Fault Refusal

/-- `pc <- pc + 1`. -/
def State.advance (s : State) : State := { s with pc := s.pc + 1 }

/-- `pc <- target` (spec/00_scope.md, notation). -/
def State.jump (s : State) (target : Nat) : State := { s with pc := target }

/-- `ptr <- p`. -/
def State.setPtr (s : State) (p : Nat) : State := { s with ptr := p }

/-- `MemWrite(ptr, v)`: store `v mod 2^W` into the cell at the pointer (R31). -/
def State.memWrite (s : State) (v : Nat) : State :=
  { s with tape := Memory.write s.tape s.ptr (v % s.cfg.width.modulus) }

/-- Go on with the cell at the pointer. The tape's indexes are `[0, L)` (R30); a pointer outside them, which R13 rules
out, faults. -/
def State.onCell (s : State) (k : Nat → Result) : Result :=
  if s.ptr < s.cfg.tapeLen then k s.cell else .fault (.tapeIndexOutOfRange s.ptr)

/-- The number of a fault (R160). -/
def FaultCode.number : FaultCode → Nat
  | .invalidCellWidth => 1
  | .unmatchedLoopOpen => 2
  | .unmatchedLoopClose => 3
  | .inputError => 4
  | .outputError => 5

/-- Raising a run-time fault (R163): `status <- FAULT(code, pc)`, and `pc` is not advanced. There is no vector, no saved
register but `status`, and no mode (R164). -/
def State.raise (s : State) (code : FaultCode) : State := { s with status := .fault code s.pc }

/-- What a channel call comes to: it has not returned, it failed, or it succeeded (R106, R171, R172). -/
inductive CallResult (α : Type) where
  | hold
  | err (s : State)
  | ok (a : α) (s : State)
deriving DecidableEq, Repr

/-- `InRead()` (R171): take the host's next answer. The end of the stream is an error. With no answer yet, the call has
not returned (R174). -/
def State.inRead (s : State) : CallResult Byte :=
  match s.inAnswers with
  | [] => .hold
  | .byte b :: as => .ok b { s with inAnswers := as }
  | .error :: as => .err { s with inAnswers := as }
  | .endOfStream :: as => .err { s with inAnswers := as }

/-- `OutWrite(v)` (R172): take the host's next answer. A success appends `v` to the output stream, a failure appends
nothing. With no answer yet, the call has not returned (R174). -/
def State.outWrite (s : State) (v : Byte) : CallResult Unit :=
  match s.outAnswers with
  | [] => .hold
  | .ok :: as => .ok () { s with outAnswers := as, outStream := s.outStream ++ [v] }
  | .error :: as => .err { s with outAnswers := as }

/-- The cell after a failed input, as `INPUT_FAIL_CELL` says (R130). -/
def State.failedInputCell (s : State) : State :=
  match s.cfg.inputFailCell with
  | .unchanged => s
  | .zeroed => s.memWrite wauZero

end Sys2Proof.Machine
end

