-- ==== Sys2Proof/Machine/Rle.lean ====
section
/-! DEFINITION. The streaming Run-Length Encoder (spec/41_rle_encoder.md): one head event (R78 to R81) and the load
driver around it (R86). -/

namespace Sys2Proof.Machine

/-- What one head event comes to: the invocation goes on, or it returns with one of the two statuses of R73. -/
inductive RleVerdict where
  | more
  /-- `DONE`: the end of input was reached and every pending run was flushed. -/
  | done
  /-- `REWIND`: the head event was not consumed. -/
  | rewind
deriving DecidableEq, Repr

/-- The start of an invocation (R75): `wr <- 0`, with an empty buffer. -/
def RleState.invocation (r : RleState) (cap : Nat) (later : List Nat) : RleState :=
  { r with wr := 0, buf := [], cap := cap, laterCaps := later }

/-- The start of a load (R74) and of its first invocation (R75). -/
def RleState.start (src : List Token) (cap : Nat) (later : List Nat) : RleState where
  src := src
  pendKind := none
  pendCnt := 0
  wr := 0
  buf := []
  cap := cap
  laterCaps := later

/-- `pend_kind <- none; pend_cnt <- 0`. -/
def RleState.clearPend (r : RleState) : RleState := { r with pendKind := none, pendCnt := 0 }

/-- A new pending run of count 1. -/
def RleState.startRun (r : RleState) (k : RepKind) : RleState := { r with pendKind := some k, pendCnt := 1 }

/-- `tok_consume`: the source advances by one. -/
def RleState.consume (r : RleState) : RleState := { r with src := r.src.tail }

/-- `Emit(byte)` (R77): none when the buffer is full, which is the `REWIND` return. DESIGN CHOICE (assumption 30): with
`wr` above the capacity, which R83 rules out, it emits. -/
def RleState.emit (r : RleState) (b : Byte) : Option RleState :=
  if r.wr = r.cap then none else some { r with buf := r.buf ++ [b], wr := r.wr + 1 }

/-- Flush the pending run if there is one: `Emit(encode(pend_kind, pend_cnt))`, none on overflow. DESIGN CHOICE (assumption
30): a pending count of 0 or above 63, which R83 rules out, is not refused as a call of `encode` is (R63, D26); its low
six bits are emitted. -/
def RleState.flush (m : CodeMap) (r : RleState) : Option RleState :=
  match r.pendKind with
  | none => some r
  | some k => r.emit (encodeFields m (.rep k) (BitVec.ofNat 6 r.pendCnt))

/-- R81: end of input. -/
def RleState.onEnd (m : CodeMap) (r : RleState) : RleVerdict × RleState :=
  match r.flush m with
  | none => (.rewind, r)
  | some r1 => (.done, r1.clearPend)

/-- R78, R79 and R80 for a repeatable token of kind `k` at the head. -/
def RleState.onRep (m : CodeMap) (r : RleState) (k : RepKind) : RleVerdict × RleState :=
  if r.pendKind = some k ∧ r.pendCnt < 63 then (.more, { r with pendCnt := r.pendCnt + 1 }.consume)
  else
    match r.flush m with
    | none => (.rewind, r)
    | some r1 => (.more, (r1.startRun k).consume)

/-- R80 for a non-repeatable token of kind `k` at the head: the flush stays done when the token's own emission
overflows. -/
def RleState.onNonRep (m : CodeMap) (r : RleState) (k : NonRepKind) : RleVerdict × RleState :=
  match r.flush m with
  | none => (.rewind, r)
  | some r1 =>
    match r1.clearPend.emit (encodeFields m (.nonrep k) 0) with
    | none => (.rewind, r1.clearPend)
    | some r2 => (.more, r2.consume)

/-- Process the head event (R82). -/
def RleState.event (m : CodeMap) (r : RleState) : RleVerdict × RleState :=
  match r.src with
  | [] => r.onEnd m
  | t :: _ =>
    match t.kind with
    | .rep k => r.onRep m k
    | .nonrep k => r.onNonRep m k

/-- The load begins (R86 step 1, and its first invocation). A buffer of capacity 0 is refused (R75, D12). -/
def beginLoad (src : List Token) (cap : Nat) (later : List Nat) (s : State) : Result :=
  if cap = 0 then .refused .zeroCapacity
  else .next { s with prog := [], jt := [], phase := .compiling (RleState.start src cap later), cmd := none }

/-- The driver after an invocation that returned `DONE` (R86 steps 3 and 4): the JPU starts. -/
def beginPairing (s : State) : Result :=
  .next { s with jt := [], phase := .pairing { stack := [], scan := 0 } }

/-- The driver after an invocation that returned `REWIND` (R86 step 2): invoke again, with the next capacity. -/
def invokeAgain (r : RleState) (s : State) : Result :=
  match r.laterCaps with
  | [] => .next { s with phase := .compiling (r.invocation r.cap []) }
  | c :: cs =>
    if c = 0 then .refused .zeroCapacity
    else .next { s with phase := .compiling (r.invocation c cs) }

/-- "append the `wr` bytes written to `prog`" (R86), refused where the program would exceed `P_MAX`. -/
def appendBuffer (r : RleState) (s : State) (k : State → Result) : Result :=
  if s.prog.length + r.buf.length ≤ s.cfg.pMax then k { s with prog := s.prog ++ r.buf }
  else .refused .programTooLong

/-- One step of a load's RLE part: one head event, and the driver's work where the invocation returns. -/
def rleStep (r : RleState) (s : State) : Result :=
  match r.event s.cfg.codeMap with
  | (.more, r1) => .next { s with phase := .compiling r1 }
  | (.done, r1) => appendBuffer r1 s beginPairing
  | (.rewind, r1) => appendBuffer r1 s (invokeAgain r1)

end Sys2Proof.Machine
end

