-- ==== Sys2Proof/Machine/HostOps.lean ====
section
/-! DEFINITION. The host operations of R173: construction (R185), load (R86), run (R100), reset (R186) and inspection
(R178), with the host's moves at its ports (R175). -/

namespace Sys2Proof.Machine

/-- The width of a number of bits, if it is one of the four (R5). -/
def widthOfBits (bits : Nat) : Option Width :=
  if bits = 8 then some .w8
  else if bits = 16 then some .w16
  else if bits = 32 then some .w32
  else if bits = 64 then some .w64
  else none

/-- `construct(W, L)` (R185), with the named parameters of R7. The width is checked first (R166). -/
def construct (bits L : Nat) (m : CodeMap) (f : InputFailCell) (pMax : Nat) : Result :=
  match widthOfBits bits with
  | none => .fault (.invalidCellWidth bits)
  | some w =>
    if L = 0 then .refused .zeroTapeLength
    else if m.wf then
      .next (State.initial { width := w, tapeLen := L, codeMap := m, inputFailCell := f, pMax := pMax })
    else .refused .codeMapNotBijective

/-- The start of a run (R100): `pc <- 0`, `status <- RUNNING`; the tape and the pointer stay. -/
def startRun (s : State) : State := { s with pc := 0, status := .running, cmd := none }

/-- `reset()` (R186): every cell and the pointer 0, `status <- IDLE`; all else stays. -/
def resetVm (s : State) : State := { s with tape := [], ptr := 0, status := .idle, cmd := none }

/-- Take the operation the host has issued. It is legal only when no run (R173) and no load is in progress, and in the
boot order of R187. -/
def takeCommand (op : HostOp) (s : State) : Result :=
  if s.status = .running then .refused .operationDuringRun
  else
    match s.phase, op with
    | .constructed, .load src cap later => beginLoad src cap later s
    | .constructed, .run => .refused .notLoaded
    | .constructed, .reset => .refused .notLoaded
    | .compiling _, _ => .refused .operationDuringLoad
    | .pairing _, _ => .refused .operationDuringLoad
    | .loaded, .load _ _ _ => .refused .alreadyLoaded
    | .loaded, .run => .next (startRun s)
    | .loaded, .reset => .next (resetVm s)

/-! ### Moves of the host, which are no steps of the engine -/

/-- The host issues an operation. DESIGN CHOICE (assumption 9): an operation issued while an earlier one still stands in
`cmd` replaces it, and the earlier one is never taken; the spec names no such port (R10, R173, R193). -/
def State.issue (s : State) (op : HostOp) : State := { s with cmd := some op }

/-- The host answers an `InRead`, the outstanding one or one to come (R175). -/
def State.answerIn (s : State) (a : InAnswer) : State := { s with inAnswers := s.inAnswers ++ [a] }

/-- The host answers an `OutWrite` (R175). -/
def State.answerOut (s : State) (a : OutAnswer) : State := { s with outAnswers := s.outAnswers ++ [a] }

/-- The value copy an inspection gives (R42, R178). -/
structure Snapshot where
  tape : Memory
  ptr : Nat
deriving DecidableEq, Repr

/-- `inspect()` (R178): between steps of a run or between operations; refused while a load is in progress. -/
def State.inspect (s : State) : Except Refusal Snapshot :=
  match s.phase with
  | .constructed => .ok { tape := s.tape, ptr := s.ptr }
  | .loaded => .ok { tape := s.tape, ptr := s.ptr }
  | .compiling _ => .error .inspectDuringLoad
  | .pairing _ => .error .inspectDuringLoad

end Sys2Proof.Machine
end

