-- ==== Sys2Proof/Machine/Jpu.lean ====
section
/-! DEFINITION. The Jump-Pairing Unit (spec/42_jump_pairing.md): one scan index of the pass of R95, and its end. -/

namespace Sys2Proof.Machine

/-- The pass goes on to the next index. -/
def scanNext (stack : List Nat) (j : JpuState) (s : State) : State :=
  { s with phase := .pairing { stack := stack, scan := j.scan + 1 } }

/-- Loop-open at the scan index (R91): push it. -/
def pairOpen (j : JpuState) (s : State) : Result := .next (scanNext (j.scan :: j.stack) j s)

/-- Loop-close at the scan index (R92): pop the index of its loop-open and record the pair both ways, or reject the
program. -/
def pairClose (j : JpuState) (s : State) : Result :=
  match j.stack with
  | [] => .fault (.unmatchedLoopClose j.scan)
  | o :: st => .next (scanNext st j { s with jt := Table.set (Table.set s.jt o j.scan) j.scan o })

/-- Any other byte at the scan index (R93): neither the stack nor the table changes. -/
def pairOther (j : JpuState) (s : State) : Result := .next (scanNext j.stack j s)

/-- The end of the pass (R94): an open loop left over rejects the program; otherwise the load has succeeded and the VM
state is as R23 says. -/
def pairEnd (j : JpuState) (s : State) : Result :=
  match j.stack with
  | [] => .next { s with phase := .loaded, tape := [], ptr := 0, pc := 0, status := .idle }
  | i :: _ => .fault (.unmatchedLoopOpen i)

/-- One step of a load's JPU part (R95). DESIGN CHOICE (assumption 30): a scan index above `P`, which R95 rules out, is the
end of the pass. -/
def jpuStep (j : JpuState) (s : State) : Result :=
  match instrAt s.cfg.codeMap s.prog j.scan with
  | none => pairEnd j s
  | some .lopen => pairOpen j s
  | some .lclose => pairClose j s
  | some .out => pairOther j s
  | some .inp => pairOther j s
  | some (.mvr _) => pairOther j s
  | some (.mvl _) => pairOther j s
  | some (.inc _) => pairOther j s
  | some (.dec _) => pairOther j s

end Sys2Proof.Machine
end

