-- ==== Sys2Proof/Machine/CellArith.lean ====
section
/-! DEFINITION. Cell arithmetic (spec/45_cell_arith.md), one rule at every width (R121). -/

namespace Sys2Proof.Machine

/-- `INC n` (R120): `MemWrite(ptr, (MemRead(ptr) + n) mod 2^W)`, `pc <- pc + 1`. -/
def execInc (n : Count) (s : State) : Result :=
  s.onCell fun c => .next (s.memWrite (wauCellAdd s.cfg.width c (countOf n))).advance

/-- `DEC n` (R122): `MemWrite(ptr, (MemRead(ptr) - n) mod 2^W)`, `pc <- pc + 1`. -/
def execDec (n : Count) (s : State) : Result :=
  s.onCell fun c => .next (s.memWrite (wauCellSub s.cfg.width c (countOf n))).advance

end Sys2Proof.Machine
end

