-- ==== Sys2Proof/Machine/InOut.lean ====
section
/-! DEFINITION. Input and output (spec/46_io.md). A call that has not returned holds the step (R106, R174): the state
stays as it is, and the same instruction is executed again once the host has answered. -/

namespace Sys2Proof.Machine

/-- `OUT` (R125): write the low 8 bits of the cell (R126), or raise `OutputError(pc)` (R163). -/
def execOut (s : State) : Result :=
  s.onCell fun c =>
    match s.outWrite (wauTrunc8 c) with
    | .hold => .next s
    | .err s1 => .next (s1.raise .outputError)
    | .ok _ s1 => .next s1.advance

/-- `IN` (R128): the byte read, widened, replaces the cell (R129), or `InputError(pc)` is raised (R163) and the cell is
as `INPUT_FAIL_CELL` says (R130). -/
def execInp (s : State) : Result :=
  s.onCell fun _ =>
    match s.inRead with
    | .hold => .next s
    | .err s1 => .next (s1.failedInputCell.raise .inputError)
    | .ok b s1 => .next (s1.memWrite (wauZext8 b)).advance

end Sys2Proof.Machine
end

