-- ==== Sys2Proof/Machine/Loop.lean ====
section
/-! DEFINITION. Loops (spec/47_loop.md). The jump table is read only when the branch is taken (R135, R138). -/

namespace Sys2Proof.Machine

/-- `LOPEN` (R135): if the cell is zero, `pc <- jt[pc] + 1`, the instruction after the loop; else `pc <- pc + 1`. -/
def execLopen (s : State) : Result :=
  s.onCell fun c =>
    if wauIsZero c then
      match s.jumpEntry with
      | some j => .next (s.jump (j + 1))
      | none => .refused (.noJumpEntry s.pc)
    else .next s.advance

/-- `LCLOSE` (R138): if the cell is not zero, `pc <- jt[pc]`, the paired `LOPEN`; else `pc <- pc + 1`. -/
def execLclose (s : State) : Result :=
  s.onCell fun c =>
    if wauIsZero c then .next s.advance
    else
      match s.jumpEntry with
      | some j => .next (s.jump j)
      | none => .refused (.noJumpEntry s.pc)

end Sys2Proof.Machine
end

