-- ==== Sys2Proof/Machine/PointerMove.lean ====
section
/-! DEFINITION. Pointer moves (spec/44_pointer_move.md). -/

namespace Sys2Proof.Machine

/-- `MVR n` (R115): `ptr <- (ptr + n) mod L`, `pc <- pc + 1`. -/
def execMvr (n : Count) (s : State) : Result :=
  .next (s.setPtr (wauPtrAdd s.cfg.tapeLen s.ptr (countOf n))).advance

/-- `MVL n` (R117): `ptr <- (ptr - n) mod L`, `pc <- pc + 1`. -/
def execMvl (n : Count) (s : State) : Result :=
  .next (s.setPtr (wauPtrSub s.cfg.tapeLen s.ptr (countOf n))).advance

end Sys2Proof.Machine
end

