-- ==== Sys2Proof/Machine/Dispatch.lean ====
section
/-! DEFINITION. Dispatch: "`op` selects exactly one of eight arms" (R104). -/

namespace Sys2Proof.Machine
open Host

def exec (i : Instr) (s : State) : Host.Outcome State Fault Refusal :=
  match i with
  | .out => Sys2Proof.Machine.execOut s
  | .inp => Sys2Proof.Machine.execInp s
  | .lopen => Sys2Proof.Machine.execLopen s
  | .lclose => Sys2Proof.Machine.execLclose s
  | .mvr n => Sys2Proof.Machine.execMvr n s
  | .mvl n => Sys2Proof.Machine.execMvl n s
  | .inc n => Sys2Proof.Machine.execInc n s
  | .dec n => Sys2Proof.Machine.execDec n s

end Sys2Proof.Machine
end

