-- ==== Sys2Proof/Machine/Run.lean ====
section
/-! DEFINITION. The step of a run (spec/43_dispatch.md R101 to R109), and a program for one instruction. -/

namespace Sys2Proof.Machine

/-- One step of a loaded engine (R109): none unless `RUNNING`; at `pc = P` the run ends (R101); else fetch (R102), decode
(R103) and dispatch (R104). A `pc` above `P`, which R14 rules out, faults. -/
def runStep (s : State) : Result :=
  if s.status = .running then
    if s.pc = s.prog.length then .next { s with status := .done }
    else
      match s.fetch with
      | some b => exec (decode s.cfg.codeMap b) s
      | none => .fault (.pcOutOfRange s.pc)
  else .next s

/-- The state in the middle of a run of the shortest balanced program that holds the instruction byte `b`, at that
instruction (assumption 6): a bracket comes with its pair and the table that pairs them. -/
def State.withProgramByte (s : State) (b : Byte) : State :=
  let m := s.cfg.codeMap
  let s1 := { s with phase := .loaded, status := .running, cmd := none }
  match decode m b with
  | .lopen => { s1 with prog := [b, encode m .lclose], jt := [(0, 1), (1, 0)], pc := 0 }
  | .lclose => { s1 with prog := [encode m .lopen, b], jt := [(0, 1), (1, 0)], pc := 1 }
  | .out => { s1 with prog := [b], jt := [], pc := 0 }
  | .inp => { s1 with prog := [b], jt := [], pc := 0 }
  | .mvr _ => { s1 with prog := [b], jt := [], pc := 0 }
  | .mvl _ => { s1 with prog := [b], jt := [], pc := 0 }
  | .inc _ => { s1 with prog := [b], jt := [], pc := 0 }
  | .dec _ => { s1 with prog := [b], jt := [], pc := 0 }

end Sys2Proof.Machine
end

