-- ==== Sys2Proof/Machine/Step.lean ====
section
/-! DEFINITION. One step of the engine: take the operation the host has issued, or go on with the load or the run in
progress. With neither, there is no step and the state stays (R109; assumption 10). -/

namespace Sys2Proof.Machine

/-- The step function. -/
def step (s : State) : Host.Outcome State Fault Refusal :=
  match s.cmd with
  | some op => takeCommand op s
  | none =>
    match s.phase with
    | .constructed => .next s
    | .compiling r => rleStep r s
    | .pairing j => jpuStep j s
    | .loaded => runStep s

/-- `s` in the middle of a run whose next instruction is the opcode-table word `w` (assumption 6). -/
def State.withFetchWord (s : State) (_nbits w : Nat) : State := s.withProgramByte (BitVec.ofNat 8 w)

end Sys2Proof.Machine
end

