-- ==== Sys2Proof/Safety.lean ====
section
/-! DEFINITION. The terms the claims are stated in: the invariants the spec gives the state, the run-length expansion of
R54, the bracket depth behind R92 and R94, and runs of several steps. -/

namespace Sys2Proof.Machine

/-! ### Runs -/

/-- Go on from an outcome that is a next state. -/
def andThen (o : Result) (f : State → Result) : Result :=
  match o with
  | .next s => f s
  | .fault r => .fault r
  | .refused r => .refused r

/-- `k` steps, stopping at the first fault or refusal. -/
def steps : Nat → State → Result
  | 0, s => .next s
  | k + 1, s => andThen (step s) (steps k)

/-- The instruction `i`, `k` times. -/
def execTimes (i : Instr) : Nat → State → Result
  | 0, s => .next s
  | k + 1, s => andThen (exec i s) (execTimes i k)

/-- A run is in progress and the host has issued nothing: the engine's next step is an instruction, or the end of the
run. -/
structure Ready (s : State) : Prop where
  phase : s.phase = .loaded
  status : s.status = .running
  cmd : s.cmd = none

/-- The state of an instance built with another code map (R47). -/
def State.withCodeMap (s : State) (m : CodeMap) : State := { s with cfg := { s.cfg with codeMap := m } }

/-! ### The jump table (R16, R97) -/

/-- `prog[i]` is a `LOPEN` byte (R91). -/
def OpenAt (m : CodeMap) (prog : List Byte) (i : Nat) : Prop := instrAt m prog i = some .lopen

/-- `prog[i]` is a `LCLOSE` byte. -/
def CloseAt (m : CodeMap) (prog : List Byte) (i : Nat) : Prop := instrAt m prog i = some .lclose

/-- The properties of a built table (R97, R16). -/
structure Paired (m : CodeMap) (prog : List Byte) (jt : Table) : Prop where
  /-- Complete: an entry exactly at every bracket index. -/
  complete : ∀ i, (∃ j, Table.lookup jt i = some j) ↔ OpenAt m prog i ∨ CloseAt m prog i
  /-- Symmetric. -/
  symmetric : ∀ i j, Table.lookup jt i = some j → Table.lookup jt j = some i
  /-- A loop-open maps to a later loop-close. -/
  opens : ∀ i j, Table.lookup jt i = some j → OpenAt m prog i → i < j ∧ CloseAt m prog j
  /-- A loop-close maps to an earlier loop-open. -/
  closes : ∀ i j, Table.lookup jt i = some j → CloseAt m prog i → j < i ∧ OpenAt m prog j
  /-- Properly nested. -/
  nested : ∀ a b c d, Table.lookup jt a = some b → Table.lookup jt c = some d → a < b → c < d → a < c → b < c ∨ d < b
  /-- In range. -/
  inRange : ∀ i j, Table.lookup jt i = some j → j < prog.length

/-- What the pairing pass has built when `n` bytes are scanned and `stack` holds the loops still open (R95). -/
structure PairedUpTo (m : CodeMap) (prog : List Byte) (jt : Table) (stack : List Nat) (n : Nat) : Prop where
  bound : n ≤ prog.length
  complete : ∀ i, (∃ j, Table.lookup jt i = some j) ↔
    i < n ∧ (CloseAt m prog i ∨ (OpenAt m prog i ∧ i ∉ stack))
  symmetric : ∀ i j, Table.lookup jt i = some j → Table.lookup jt j = some i
  opens : ∀ i j, Table.lookup jt i = some j → OpenAt m prog i → i < j ∧ CloseAt m prog j
  closes : ∀ i j, Table.lookup jt i = some j → CloseAt m prog i → j < i ∧ OpenAt m prog j
  nested : ∀ a b c d, Table.lookup jt a = some b → Table.lookup jt c = some d → a < b → c < d → a < c → b < c ∨ d < b
  stackOpen : ∀ i ∈ stack, i < n ∧ OpenAt m prog i
  stackOrder : stack.Pairwise (fun a b => b < a)
  /-- No loop still open lies inside a loop already paired. -/
  stackOutside : ∀ k ∈ stack, ∀ a b, Table.lookup jt a = some b → a < b → ¬(a < k ∧ k < b)

/-! ### The invariant of one instance -/

/-- The RLE's invariants (R83): the pending count is in `[1, 63]` exactly when a run is pending, and `wr ≤ B` with
`B ≥ 1` (R75). The buffer holds the `wr` bytes written. -/
structure RleInv (r : RleState) : Prop where
  pendNone : r.pendKind = none → r.pendCnt = 0
  pendSome : r.pendKind ≠ none → 1 ≤ r.pendCnt ∧ r.pendCnt ≤ 63
  written : r.buf.length = r.wr
  fits : r.wr ≤ r.cap
  capacity : 1 ≤ r.cap

/-- The tape and the registers as construction leaves them (R185, R23). -/
def Fresh (s : State) : Prop := s.tape = [] ∧ s.ptr = 0 ∧ s.pc = 0 ∧ s.status = .idle

/-- What a status says of `pc` (R18, R101, R163): a run that is done stopped at `P`, and a fault is recorded at its
`IN` or `OUT` instruction, where `pc` still stands. -/
def StatusOk (s : State) : Prop :=
  match s.status with
  | .idle => True
  | .running => True
  | .done => s.pc = s.prog.length
  | .fault .inputError i => i = s.pc ∧ instrAt s.cfg.codeMap s.prog i = some .inp
  | .fault .outputError i => i = s.pc ∧ instrAt s.cfg.codeMap s.prog i = some .out
  | .fault .invalidCellWidth _ => False
  | .fault .unmatchedLoopOpen _ => False
  | .fault .unmatchedLoopClose _ => False

/-- What each phase of the boot order (R187) holds. -/
def PhaseInv (s : State) : Prop :=
  match s.phase with
  | .constructed => Fresh s ∧ s.prog = [] ∧ s.jt = []
  | .compiling r => Fresh s ∧ s.jt = [] ∧ RleInv r ∧ s.prog.length ≤ s.cfg.pMax
  | .pairing j =>
    Fresh s ∧ PairedUpTo s.cfg.codeMap s.prog s.jt j.stack j.scan ∧ s.prog.length ≤ s.cfg.pMax
  | .loaded =>
    Paired s.cfg.codeMap s.prog s.jt ∧ s.pc ≤ s.prog.length ∧ s.prog.length ≤ s.cfg.pMax ∧ StatusOk s

/-- The invariant of an engine instance: a legal configuration (R17), the pointer in `[0, L)` (R13), the tape and the
jump table in canonical form, and what its phase holds. -/
structure State.Inv (s : State) : Prop where
  cfg : s.cfg.wf
  ptr : s.ptr < s.cfg.tapeLen
  tape : Memory.wf s.cfg.width s.cfg.tapeLen s.tape
  jt : Table.wf s.jt
  phase : PhaseInv s

/-! ### The run-length expansion (R54) -/

/-- The maximal runs of equal tokens, in order. -/
def tokenRuns : List Token → List (Token × Nat)
  | [] => []
  | t :: ts =>
    match tokenRuns ts with
    | [] => [(t, 1)]
    | (u, k) :: rs => if t = u then (t, k + 1) :: rs else (t, 1) :: (u, k) :: rs

/-- The instructions of a run of `k` equal tokens (R54): for a repeatable token, `q = floor((k - 1) / 63)` instructions of
count 63 and one of count `k - 63*q`; for a non-repeatable token, `k` instructions. -/
def expandRun (t : Token) (k : Nat) : List Instr :=
  match t.kind with
  | .rep r =>
    List.replicate ((k - 1) / 63) (Instr.ofOp (.rep r) 63) ++
      [Instr.ofOp (.rep r) (BitVec.ofNat 6 (k - 63 * ((k - 1) / 63)))]
  | .nonrep r => List.replicate k (Instr.ofOp (.nonrep r) 0)

/-- The instructions a token sequence assembles to (R54). -/
def expandTokens (ts : List Token) : List Instr := (tokenRuns ts).flatMap fun p => expandRun p.1 p.2

/-! ### Bracket depth (R92, R94) -/

/-- What an instruction adds to the number of open loops. -/
def bracketWeight : Instr → Int
  | .lopen => 1
  | .lclose => -1
  | .out => 0
  | .inp => 0
  | .mvr _ => 0
  | .mvl _ => 0
  | .inc _ => 0
  | .dec _ => 0

/-- Loop-opens less loop-closes in the first `k` bytes. -/
def depth (m : CodeMap) (prog : List Byte) (k : Nat) : Int :=
  ((prog.take k).map fun b => bracketWeight (decode m b)).sum

/-- Index `i` is the first loop-close with nothing open (R92, R95). -/
structure FirstUnmatchedClose (m : CodeMap) (prog : List Byte) (i : Nat) : Prop where
  close : CloseAt m prog i
  nothingOpen : depth m prog i = 0
  first : ∀ k ≤ i, 0 ≤ depth m prog k

/-- No loop-close is unmatched (R95: the first one would win over any loop-open left open). -/
def NoUnmatchedClose (m : CodeMap) (prog : List Byte) : Prop := ∀ k ≤ prog.length, 0 ≤ depth m prog k

/-- Index `i` is a loop-open that is never closed. -/
def UnmatchedOpen (m : CodeMap) (prog : List Byte) (i : Nat) : Prop :=
  OpenAt m prog i ∧ ∀ k, i < k → k ≤ prog.length → depth m prog i < depth m prog k

/-- Index `i` is the last unmatched loop-open (R94). -/
structure LastUnmatchedOpen (m : CodeMap) (prog : List Byte) (i : Nat) : Prop where
  unmatched : UnmatchedOpen m prog i
  last : ∀ k, UnmatchedOpen m prog k → k ≤ i

/-- Every bracket has its pair. -/
structure Balanced (m : CodeMap) (prog : List Byte) : Prop where
  closes : NoUnmatchedClose m prog
  opens : depth m prog prog.length = 0

end Sys2Proof.Machine
end

