-- ==== Sys2Proof/Certificates/Slice0/Obligations.lean ====
section
/-! DEFINITION. The statements for the provers. Each docstring names the rules of spec/ it formalises; what rests on a
choice of the model names the log entry. -/

open Sys2Proof Sys2Proof.Machine

/-! ### The Command Codec -/

/-- R60: `K = b[7:6]` and `N = b[5:0]`. -/
def Obligations.DecodeExtractsKindAndPayload : Prop :=
  ∀ b : Byte, (decodeFields b).1.toNat = b.toNat / 64 ∧ (decodeFields b).2.toNat = b.toNat % 64

/-- R61: the payload selects the column, the code the kind within it; the columns of this hardware (decision D1 of the spec,
log entry 1). -/
def Obligations.ClassifySelectsByPayload : Prop :=
  (∀ (m : CodeMap) (K : Code) (N : Count),
    (N ≠ 0 → classify m K N = (.rep (m.rep.get K), N)) ∧ (N = 0 → classify m K N = (.nonrep (m.nonrep.get K), 0))) ∧
  (CodeMap.default.rep.get 0b00 = .mvr ∧ CodeMap.default.rep.get 0b01 = .mvl ∧
    CodeMap.default.rep.get 0b10 = .inc ∧ CodeMap.default.rep.get 0b11 = .dec) ∧
  (CodeMap.default.nonrep.get 0b00 = .out ∧ CodeMap.default.nonrep.get 0b01 = .inp ∧
    CodeMap.default.nonrep.get 0b10 = .lopen ∧ CodeMap.default.nonrep.get 0b11 = .lclose)

/-- R49: the opcode map, byte range by byte range, `n = b[5:0]`, under the code map of R47 (decision D1 of the spec, log
entry 1). -/
def Obligations.OpcodeMapOfEveryByte : Prop :=
  ∀ b : Byte,
    (b = 0x00 → decode CodeMap.default b = .out) ∧
    (0x01 ≤ b ∧ b ≤ 0x3F → decode CodeMap.default b = .mvr (b.setWidth 6)) ∧
    (b = 0x40 → decode CodeMap.default b = .inp) ∧
    (0x41 ≤ b ∧ b ≤ 0x7F → decode CodeMap.default b = .mvl (b.setWidth 6)) ∧
    (b = 0x80 → decode CodeMap.default b = .lopen) ∧
    (0x81 ≤ b ∧ b ≤ 0xBF → decode CodeMap.default b = .inc (b.setWidth 6)) ∧
    (b = 0xC0 → decode CodeMap.default b = .lclose) ∧
    (0xC1 ≤ b ∧ b ≤ 0xFF → decode CodeMap.default b = .dec (b.setWidth 6))

/-- Words written out from the encodings of R115 to R138 decode to their instructions, under the code map of R47 (log
entry 1). -/
def Obligations.WordsOfEachFamilyDecode : Prop :=
  decodeTableWord 8 0b00000111 = some (.mvr 7) ∧ decodeTableWord 8 0b01000001 = some (.mvl 1) ∧
  decodeTableWord 8 0b10111111 = some (.inc 63) ∧ decodeTableWord 8 0b11000110 = some (.dec 6) ∧
  decodeTableWord 8 0b00000000 = some .out ∧ decodeTableWord 8 0b01000000 = some .inp ∧
  decodeTableWord 8 0b10000000 = some .lopen ∧ decodeTableWord 8 0b11000000 = some .lclose

/-- R64: the round trip at the field level, for every code map, kind and count. -/
def Obligations.FieldRoundTrip : Prop :=
  ∀ m : CodeMap,
    (∀ (k : RepKind) (c : Count), decodeFields (encodeFields m (.rep k) c) = (m.code (.rep k), c)) ∧
    (∀ (k : NonRepKind) (c : Count), decodeFields (encodeFields m (.nonrep k) c) = (m.code (.nonrep k), 0))

/-- R65: the round trip at the instruction level, under every legal code map (R47), with every operand; and where it
fails, a repeatable kind with count 0. -/
def Obligations.InstructionRoundTrip : Prop :=
  ∀ m : CodeMap, m.wf →
    (∀ (i : Instr) (rest : List Byte), i.wf = true →
      decode m (encode m i) = i ∧ decodeBytes m (encode m i :: rest) = .ok (i, rest)) ∧
    (∀ (k : NonRepKind) (c : Count), decode m (encodeFields m (.nonrep k) c) = Instr.ofOp (.nonrep k) 0) ∧
    (∀ k : RepKind, decode m (encodeFields m (.rep k) 0) ≠ Instr.ofOp (.rep k) 0)

/-- The other direction, from R49 and R50: every byte decodes to one well-formed instruction, whose encoding it is. -/
def Obligations.EncodeInvertsDecode : Prop :=
  ∀ m : CodeMap, m.wf → ∀ b : Byte, encode m (decode m b) = b ∧ (decode m b).wf = true

/-- R63: the two contract violations of `encode` are refused (decision D26 of the spec), every other call builds the byte of
R62, and why: the byte of a repeatable kind with count 0 would be the non-repeatable instruction of the same code. -/
def Obligations.EncodeRefusesContractViolations : Prop :=
  ∀ (m : CodeMap) (n : Nat),
    (∀ k : RepKind, 63 < n → encodeCall m (.rep k) n = .error .countAbove63) ∧
    (∀ k : RepKind, n = 0 → encodeCall m (.rep k) n = .error .countZero) ∧
    (∀ k : RepKind, 1 ≤ n → n ≤ 63 → encodeCall m (.rep k) n = .ok (m.code (.rep k) ++ BitVec.ofNat 6 n)) ∧
    (∀ k : NonRepKind, encodeCall m (.nonrep k) n = .ok (m.code (.nonrep k) ++ (0 : Count))) ∧
    (∀ k : RepKind, decode m (encodeFields m (.rep k) 0) =
      Instr.ofOp (.nonrep (m.nonrep.get (m.code (.rep k)))) 0)

/-! ### The Wrap-Around Arithmetic Unit -/

/-- R146 and R147: the cell sum and difference are the remainders in `[0, 2^W)`, with the unsigned form R147 gives. -/
def Obligations.CellResultsAreRemainders : Prop :=
  ∀ (w : Width) (c n : Nat), c < 2 ^ w.bits → 1 ≤ n → n ≤ 63 →
    wauCellAdd w c n = (c + n) % 2 ^ w.bits ∧
    wauCellSub w c n < 2 ^ w.bits ∧ ((2 ^ w.bits : Nat) : Int) ∣ (c : Int) - n - (wauCellSub w c n : Int) ∧
    wauCellSub w c n = (c + 2 ^ w.bits - n) % 2 ^ w.bits

/-- R150 and R151: the pointer sum and difference are the remainders in `[0, L)`, also for counts above `L`, with the
unsigned form R151 gives. -/
def Obligations.PointerResultsAreRemainders : Prop :=
  ∀ L p n : Nat, p < L → 1 ≤ n → n ≤ 63 →
    wauPtrAdd L p n = (p + n) % L ∧
    wauPtrSub L p n < L ∧ (L : Int) ∣ (p : Int) - n - (wauPtrSub L p n : Int) ∧
    wauPtrSub L p n = (p + L - n % L) % L

/-- R158: the arithmetic laws that make run-length folding exact. -/
def Obligations.WrapArithmeticLaws : Prop :=
  (∀ (w : Width) (c a b : Nat), wauCellAdd w (wauCellAdd w c a) b = (c + a + b) % 2 ^ w.bits) ∧
  (∀ (w : Width) (c a b : Nat),
    (wauCellSub w (wauCellSub w c a) b : Int) = ((c : Int) - a - b) % ((2 ^ w.bits : Nat) : Int)) ∧
  (∀ (w : Width) (c a : Nat), c < 2 ^ w.bits → wauCellSub w (wauCellAdd w c a) a = c) ∧
  (∀ L p a b : Nat, wauPtrAdd L (wauPtrAdd L p a) b = (p + a + b) % L) ∧
  (∀ L p a : Nat, p < L → wauPtrSub L (wauPtrAdd L p a) a = p) ∧
  (∀ (w : Width) (c : Nat), c < 2 ^ w.bits → (fun x => wauCellAdd w x 1)^[2 ^ w.bits] c = c) ∧
  (∀ L p : Nat, p < L → (fun x => wauPtrAdd L x 1)^[L] p = p)

/-- R148, R149, R152, R153: zero, the zero test on the whole cell, the truncating read and the widening write, whose
result every legal width holds. -/
def Obligations.ZeroTestTruncationAndExtension : Prop :=
  wauZero = 0 ∧ (∀ c : Nat, wauIsZero c = true ↔ c = 0) ∧ (∀ c : Nat, (wauTrunc8 c).toNat = c % 2 ^ 8) ∧
  (∀ (w : Width) (x : Byte), wauZext8 x = x.toNat ∧ wauZext8 x < 2 ^ w.bits)

/-! ### Pointer moves -/

/-- R115: `MVR n`, its encoding and token, and its whole effect; everything else stays. -/
def Obligations.MoveRight : Prop :=
  (∀ n : Count, n ≠ 0 → decode CodeMap.default ((0b00 : Code) ++ n) = .mvr n) ∧ Token.gt.kind = .rep .mvr ∧
  ∀ (n : Count) (s : State),
    exec (.mvr n) s = .next { s with ptr := (s.ptr + n.toNat) % s.cfg.tapeLen, pc := s.pc + 1 }

/-- R117: `MVL n`, its encoding and token, and its whole effect: the new pointer is the remainder in `[0, L)`. -/
def Obligations.MoveLeft : Prop :=
  (∀ n : Count, n ≠ 0 → decode CodeMap.default ((0b01 : Code) ++ n) = .mvl n) ∧ Token.lt.kind = .rep .mvl ∧
  ∀ (n : Count) (s : State), 1 ≤ s.cfg.tapeLen →
    ∃ p, exec (.mvl n) s = .next { s with ptr := p, pc := s.pc + 1 } ∧ p < s.cfg.tapeLen ∧
      (s.cfg.tapeLen : Int) ∣ (s.ptr : Int) - (n.toNat : Int) - (p : Int)

/-- R116: two moves in a row act on the pointer as one move by the sum, or the difference, of the counts, and on
nothing else but `pc`. -/
def Obligations.MovesCompose : Prop :=
  ∀ (a b : Count) (s : State), 1 ≤ s.cfg.tapeLen →
    andThen (exec (.mvr a) s) (exec (.mvr b)) =
      .next { s with ptr := (s.ptr + (a.toNat + b.toNat)) % s.cfg.tapeLen, pc := s.pc + 2 } ∧
    (∃ p, andThen (exec (.mvr a) s) (exec (.mvl b)) = .next { s with ptr := p, pc := s.pc + 2 } ∧
      p < s.cfg.tapeLen ∧ (s.cfg.tapeLen : Int) ∣ (s.ptr : Int) + a.toNat - b.toNat - (p : Int)) ∧
    (∃ p, andThen (exec (.mvl a) s) (exec (.mvl b)) = .next { s with ptr := p, pc := s.pc + 2 } ∧
      p < s.cfg.tapeLen ∧ (s.cfg.tapeLen : Int) ∣ (s.ptr : Int) - (a.toNat + b.toNat) - (p : Int))

/-! ### Cell arithmetic -/

/-- R120: `INC n`, its encoding and token; the cell at the pointer becomes `(c + n) mod 2^W`, every other cell and all
other state stay, `pc` goes on. -/
def Obligations.Increment : Prop :=
  (∀ n : Count, n ≠ 0 → decode CodeMap.default ((0b10 : Code) ++ n) = .inc n) ∧ Token.plus.kind = .rep .inc ∧
  ∀ (n : Count) (s : State), s.ptr < s.cfg.tapeLen →
    ∃ t, exec (.inc n) s = .next t ∧
      t.tape.read s.ptr = (s.tape.read s.ptr + n.toNat) % 2 ^ s.cfg.width.bits ∧
      (∀ p, p ≠ s.ptr → t.tape.read p = s.tape.read p) ∧
      t = { s with tape := t.tape, pc := s.pc + 1 }

/-- R122: `DEC n`, its encoding and token; the cell at the pointer becomes the remainder of `c - n` in `[0, 2^W)`, every
other cell and all other state stay, `pc` goes on. -/
def Obligations.Decrement : Prop :=
  (∀ n : Count, n ≠ 0 → decode CodeMap.default ((0b11 : Code) ++ n) = .dec n) ∧ Token.minus.kind = .rep .dec ∧
  ∀ (n : Count) (s : State), s.ptr < s.cfg.tapeLen →
    ∃ t, exec (.dec n) s = .next t ∧
      (t.tape.read s.ptr : Int) = ((s.tape.read s.ptr : Int) - n.toNat) % ((2 ^ s.cfg.width.bits : Nat) : Int) ∧
      (∀ p, p ≠ s.ptr → t.tape.read p = s.tape.read p) ∧
      t = { s with tape := t.tape, pc := s.pc + 1 }

/-- R51: a repeatable instruction of count `n` leaves the same state as `n` instructions of count 1, but for `pc`.
(That the two tapes are one list, and not only alike at every cell, is the canonical form of log entry 17.) -/
def Obligations.RunLengthIsRepetition : Prop :=
  ∀ (k : RepKind) (n : Count) (s : State), s.cfg.wf → s.ptr < s.cfg.tapeLen →
    Memory.wf s.cfg.width s.cfg.tapeLen s.tape → n ≠ 0 →
    ∃ t u, exec (Instr.ofOp (.rep k) n) s = .next t ∧ execTimes (Instr.ofOp (.rep k) 1) n.toNat s = .next u ∧
      t = { u with pc := s.pc + 1 } ∧ u.pc = s.pc + n.toNat

/-! ### Input and output -/

/-- R125 and R126: `OUT`, its encoding and token. An `ok` answer appends the low 8 bits of the cell to the output stream
and `pc` goes on; a write failure raises `OutputError(pc)`; with no answer the step holds (R106, R174), and that a hold is
a step that changes nothing is the model's choice, log entry 7. Nothing else changes: the cell in particular. (What a failed
write leaves in the output stream is left out here: it is decision D8 of the spec, log entry 22, stated in
`ChannelsMoveOnlyAtTheirInstructions`.) -/
def Obligations.OutputByAnswer : Prop :=
  decode CodeMap.default ((0b00 : Code) ++ (0 : Count)) = .out ∧ Token.dot.kind = .nonrep .out ∧
  ∀ s : State, s.ptr < s.cfg.tapeLen →
    (∀ as, s.outAnswers = .ok :: as →
      ∃ v : Byte, v.toNat = s.tape.read s.ptr % 2 ^ 8 ∧
        exec .out s = .next { s with outAnswers := as, outStream := s.outStream ++ [v], pc := s.pc + 1 }) ∧
    (∀ as, s.outAnswers = .error :: as →
      ∃ t, exec .out s = .next t ∧
        t = { s with outAnswers := as, outStream := t.outStream, status := .fault .outputError s.pc }) ∧
    (s.outAnswers = [] → exec .out s = .next s)

/-- R128, R129 and R130: `IN`, its encoding and token. A byte replaces the cell, widened with zeros, and `pc` goes on; an
error or the end of the stream raises `InputError(pc)`, with the cell as `INPUT_FAIL_CELL` says; with no answer the step
holds (R106, R174), and that a hold is a step that changes nothing is the model's choice, log entry 7. No other cell and no
other state changes. -/
def Obligations.InputByAnswer : Prop :=
  decode CodeMap.default ((0b01 : Code) ++ (0 : Count)) = .inp ∧ Token.comma.kind = .nonrep .inp ∧
  ∀ s : State, s.ptr < s.cfg.tapeLen →
    (∀ b as, s.inAnswers = .byte b :: as →
      ∃ t, exec .inp s = .next t ∧ t.tape.read s.ptr = b.toNat ∧
        (∀ p, p ≠ s.ptr → t.tape.read p = s.tape.read p) ∧
        t = { s with tape := t.tape, inAnswers := as, pc := s.pc + 1 }) ∧
    (∀ a as, s.inAnswers = a :: as → a = .error ∨ a = .endOfStream →
      ∃ t, exec .inp s = .next t ∧
        (s.cfg.inputFailCell = .unchanged → t.tape.read s.ptr = s.tape.read s.ptr) ∧
        (s.cfg.inputFailCell = .zeroed → t.tape.read s.ptr = 0) ∧
        (∀ p, p ≠ s.ptr → t.tape.read p = s.tape.read p) ∧
        t = { s with tape := t.tape, inAnswers := as, status := .fault .inputError s.pc }) ∧
    (s.inAnswers = [] → exec .inp s = .next s)

/-- R174: a step at `IN` or `OUT` whose channel has not returned holds, however many steps are taken (that the hold is a
step that changes nothing is log entry 7); the host's answer lifts the hold, for that answer is then taken. -/
def Obligations.HeldRunStaysHeld : Prop :=
  ∀ s : State, Ready s → s.ptr < s.cfg.tapeLen →
    (instrAt s.cfg.codeMap s.prog s.pc = some .inp → s.inAnswers = [] →
      (∀ k, steps k s = .next s) ∧
      ∀ a, ∃ t, step (s.answerIn a) = .next t ∧ t.inAnswers = [] ∧ (t.pc = s.pc + 1 ∨ t.status = .fault .inputError s.pc)) ∧
    (instrAt s.cfg.codeMap s.prog s.pc = some .out → s.outAnswers = [] →
      (∀ k, steps k s = .next s) ∧
      ∀ a, ∃ t, step (s.answerOut a) = .next t ∧ t.outAnswers = [] ∧
        (t.pc = s.pc + 1 ∨ t.status = .fault .outputError s.pc))

/-! ### Loops -/

/-- R135: `LOPEN`, its encoding and token. A zero cell sends `pc` to `jt[pc] + 1`, any other cell to `pc + 1`; nothing else
changes; and in a program with a built table the entry exists. -/
def Obligations.LoopOpen : Prop :=
  decode CodeMap.default ((0b10 : Code) ++ (0 : Count)) = .lopen ∧ Token.lbracket.kind = .nonrep .lopen ∧
  ∀ s : State, s.ptr < s.cfg.tapeLen →
    (s.tape.read s.ptr = 0 → ∀ j, Table.lookup s.jt s.pc = some j →
      exec .lopen s = .next { s with pc := j + 1 }) ∧
    (s.tape.read s.ptr ≠ 0 → exec .lopen s = .next { s with pc := s.pc + 1 }) ∧
    (Paired s.cfg.codeMap s.prog s.jt → OpenAt s.cfg.codeMap s.prog s.pc →
      ∃ j, Table.lookup s.jt s.pc = some j)

/-- R138: `LCLOSE`, its encoding and token. A cell that is not zero sends `pc` to `jt[pc]`, the `LOPEN` itself, a zero cell
to `pc + 1`; nothing else changes; and in a program with a built table the entry exists and is that `LOPEN`. -/
def Obligations.LoopClose : Prop :=
  decode CodeMap.default ((0b11 : Code) ++ (0 : Count)) = .lclose ∧ Token.rbracket.kind = .nonrep .lclose ∧
  ∀ s : State, s.ptr < s.cfg.tapeLen →
    (s.tape.read s.ptr ≠ 0 → ∀ j, Table.lookup s.jt s.pc = some j → exec .lclose s = .next { s with pc := j }) ∧
    (s.tape.read s.ptr = 0 → exec .lclose s = .next { s with pc := s.pc + 1 }) ∧
    (Paired s.cfg.codeMap s.prog s.jt → CloseAt s.cfg.codeMap s.prog s.pc →
      ∃ j, Table.lookup s.jt s.pc = some j ∧ OpenAt s.cfg.codeMap s.prog j)

/-- R138 and R139: a matched pair tests the current cell at each pass. From the `LOPEN` at `a`, one step enters the body at
`a + 1` or leaves for `b + 1`; from the `LCLOSE` at `b`, one step leaves for `b + 1`, or two steps, through the `LOPEN` that
tests again, enter the body at `a + 1`. Nothing else changes on any of these ways. -/
def Obligations.LoopTestsAtEachPass : Prop :=
  ∀ (s : State) (a b : Nat), Ready s → s.Inv → OpenAt s.cfg.codeMap s.prog a → Table.lookup s.jt a = some b →
    (s.pc = a → s.tape.read s.ptr ≠ 0 → step s = .next { s with pc := a + 1 }) ∧
    (s.pc = a → s.tape.read s.ptr = 0 → step s = .next { s with pc := b + 1 }) ∧
    (s.pc = b → s.tape.read s.ptr = 0 → step s = .next { s with pc := b + 1 }) ∧
    (s.pc = b → s.tape.read s.ptr ≠ 0 → steps 2 s = .next { s with pc := a + 1 })

/-- The model's choice (log entry 16): an instruction that reads or writes a cell faults when the pointer is outside
`[0, L)`, and a loop instruction that branches where the jump table has no entry is refused. The spec rules both states
out (R13, R97). -/
def Obligations.UnreachableStatesStopByName : Prop :=
  (∀ (i : Instr) (s : State), s.cfg.tapeLen ≤ s.ptr → (∀ n, i ≠ .mvr n) → (∀ n, i ≠ .mvl n) →
    exec i s = .fault (.tapeIndexOutOfRange s.ptr)) ∧
  (∀ s : State, s.ptr < s.cfg.tapeLen → Table.lookup s.jt s.pc = none →
    (s.tape.read s.ptr = 0 → exec .lopen s = .refused (.noJumpEntry s.pc)) ∧
    (s.tape.read s.ptr ≠ 0 → exec .lclose s = .refused (.noJumpEntry s.pc)))

/-- R47: the meanings are stated through the kinds, so they are the same under every code map: an instruction executed
in an instance with another code map does exactly the same to the rest of the state. -/
def Obligations.MeaningsIgnoreCodeMap : Prop :=
  ∀ (i : Instr) (s : State) (m : CodeMap),
    exec i (s.withCodeMap m) = andThen (exec i s) (fun t => .next (t.withCodeMap m))

/-! ### The step of a run -/

/-- R102 and R103: with a run in progress and a byte at `pc`, the step is the instruction that byte decodes to, executed
at this state; nothing is added around it. -/
def Obligations.StepRunsDecodedInstruction : Prop :=
  ∀ (s : State) (b : Byte), Ready s → s.prog[s.pc]? = some b →
    step s = exec (decode s.cfg.codeMap b) s

/-- R101: at `pc = P` the run ends with `status <- DONE`, no instruction is fetched and nothing else changes; so a program
of length 0 ends at once. -/
def Obligations.RunEndsAtProgramLength : Prop :=
  ∀ s : State, Ready s → s.pc = s.prog.length → step s = .next { s with status := .done }

/-- R109, "if s.status != RUNNING then no step": an engine that is not running, with nothing issued by the host, stays as
it is (that this is a step that changes nothing is log entry 10). -/
def Obligations.NoStepWithoutRun : Prop :=
  ∀ s : State, s.cmd = none → (s.phase = .loaded ∧ s.status ≠ .running ∨ s.phase = .constructed) → step s = .next s

/-- R106 and R107: "No step refuses once a load has succeeded", and no instruction faults the machine: from every state
that meets the invariant, an engine whose load has succeeded takes a step. (That a hold, and an engine that is not running,
step to the same state are the model's choices, log entries 7 and 10.) -/
def Obligations.LoadedEngineNeverStops : Prop :=
  ∀ s : State, s.Inv → s.phase = .loaded → s.cmd = none → ∃ t, step s = .next t

/-- The invariant of an instance is kept by every step: the pointer stays in `[0, L)` (R13), `pc` in `[0, P]` (R14), every
cell in `[0, 2^W)` in canonical form, the jump table is built and properly nested (R97) or built so far (R95), the RLE keeps
R83, the program stays within `P_MAX` (R86), and `status` agrees with `pc` (R101, R163). (The canonical forms of the tape and
of the table are log entry 17, a design choice; the steps of a load are log entry 12, another.) -/
def Obligations.InvariantKeptByEveryStep : Prop :=
  ∀ s t : State, s.Inv → step s = .next t → t.Inv

/-- The machine at its start meets the invariant. -/
def Obligations.ResetMeetsInvariant : Prop := State.reset.Inv

/-- R106, R107 and R163: a step of a run leaves the run going on; or ends it at `P`; or is an `IN` or an `OUT` that faults,
recording its own `pc`, which stays. (That a hold is a step that changes nothing is log entry 7; that the end of a run is a
step of its own is log entry 11.) -/
def Obligations.OutcomesOfARunStep : Prop :=
  ∀ s t : State, Ready s → step s = .next t →
    t.status = .running ∨
    (s.pc = s.prog.length ∧ t = { s with status := .done }) ∨
    (instrAt s.cfg.codeMap s.prog s.pc = some .inp ∧ t.status = .fault .inputError s.pc ∧ t.pc = s.pc ∧ t.ptr = s.ptr) ∨
    (instrAt s.cfg.codeMap s.prog s.pc = some .out ∧ t.status = .fault .outputError s.pc ∧ t.pc = s.pc ∧
      t.ptr = s.ptr ∧ t.tape = s.tape)

/-- R15, R17 and R41: no step changes the configuration, and no step of a loaded engine, whatever the host issues, changes
the program or the jump table or leaves the loaded phase. -/
def Obligations.ProgramAndConfigurationFixed : Prop :=
  ∀ s t : State, step s = .next t →
    t.cfg = s.cfg ∧ (s.phase = .loaded → t.prog = s.prog ∧ t.jt = s.jt ∧ t.phase = .loaded)

/-- R13, "written by": in a loaded engine the pointer is changed only by `MVR`, `MVL` and a reset. -/
def Obligations.PointerWrittenOnlyByMovesAndReset : Prop :=
  ∀ s t : State, s.phase = .loaded → step s = .next t → t.ptr ≠ s.ptr →
    (s.cmd = some .reset ∧ t.ptr = 0) ∨
    (Ready s ∧ ∃ n, instrAt s.cfg.codeMap s.prog s.pc = some (.mvr n) ∨ instrAt s.cfg.codeMap s.prog s.pc = some (.mvl n))

/-- R31 and R156: a step of a run changes no cell but the one at the pointer, and that one only by `INC`, `DEC` or `IN`. -/
def Obligations.CellsWrittenOnlyAtPointer : Prop :=
  ∀ s t : State, Ready s → step s = .next t → ∀ p, t.tape.read p ≠ s.tape.read p →
    p = s.ptr ∧ (instrAt s.cfg.codeMap s.prog s.pc = some .inp ∨
      ∃ n, instrAt s.cfg.codeMap s.prog s.pc = some (.inc n) ∨ instrAt s.cfg.codeMap s.prog s.pc = some (.dec n))

/-- R35 and R39: an answer of the input channel is taken only by an `IN`, one at a time; an answer of the output channel
only by an `OUT`, one at a time, and the output stream grows only there, by the one value of a successful call (a failed
call appends nothing: decision D8 of the spec, log entry 22). -/
def Obligations.ChannelsMoveOnlyAtTheirInstructions : Prop :=
  ∀ s t : State, step s = .next t →
    (t.inAnswers = s.inAnswers ∨
      (Ready s ∧ instrAt s.cfg.codeMap s.prog s.pc = some .inp ∧ ∃ a, s.inAnswers = a :: t.inAnswers)) ∧
    ((t.outAnswers = s.outAnswers ∧ t.outStream = s.outStream) ∨
      (Ready s ∧ instrAt s.cfg.codeMap s.prog s.pc = some .out ∧
        ((s.outAnswers = .ok :: t.outAnswers ∧ ∃ v, t.outStream = s.outStream ++ [v]) ∨
         (s.outAnswers = .error :: t.outAnswers ∧ t.outStream = s.outStream))))

/-- The tape's canonical form (log entry 17) makes equal tapes equal data: two canonical tapes that agree at every cell
are the same list. -/
def Obligations.CanonicalTapesAreEqual : Prop :=
  ∀ (w : Width) (L : Nat) (a b : Memory), Memory.wf w L a → Memory.wf w L b → (∀ p, a.read p = b.read p) → a = b

/-! ### The host's operations -/

/-- R185: construction checks the width, then the length (and then the code map, log entry 16, which R47 calls a pair of
bijections), and leaves every cell 0, `ptr` 0 and `IDLE`, with the parameters as given (that every cell is 0 is decision D6
of the spec; the refusal of length 0 is D27). -/
def Obligations.ConstructionChecksItsArguments : Prop :=
  ∀ (bits L : Nat) (m : CodeMap) (f : InputFailCell) (pMax : Nat),
    ((bits ≠ 8 ∧ bits ≠ 16 ∧ bits ≠ 32 ∧ bits ≠ 64) → construct bits L m f pMax = .fault (.invalidCellWidth bits)) ∧
    (bits = 8 ∨ bits = 16 ∨ bits = 32 ∨ bits = 64 →
      (L = 0 → construct bits L m f pMax = .refused .zeroTapeLength) ∧
      (1 ≤ L → ¬m.wf → construct bits L m f pMax = .refused .codeMapNotBijective) ∧
      (1 ≤ L → m.wf → ∃ s, construct bits L m f pMax = .next s ∧ s.cfg.width.bits = bits ∧ s.cfg.tapeLen = L ∧
        s.cfg.codeMap = m ∧ s.cfg.inputFailCell = f ∧ s.cfg.pMax = pMax ∧ (∀ p, s.tape.read p = 0) ∧ s.ptr = 0 ∧
        s.pc = 0 ∧ s.status = .idle ∧ s.prog = [] ∧ s.jt = [] ∧ s.Inv))

/-- R186: a reset, when no run is in progress, zeroes every cell and the pointer and sets `IDLE` (decision D5 of the spec),
and leaves all else; in a run it is refused (D23). (The port the operation comes through is log entry 9.) -/
def Obligations.ResetClearsTapeAndPointer : Prop :=
  ∀ s : State, s.phase = .loaded → s.cmd = some .reset →
    (s.status ≠ .running → ∃ t, step s = .next t ∧ (∀ p, t.tape.read p = 0) ∧
      t = { s with tape := t.tape, ptr := 0, status := .idle, cmd := none }) ∧
    (s.status = .running → step s = .refused .operationDuringRun)

/-- R100 and R188: a run starts only on an engine whose load succeeded and that is not running; it sets `pc <- 0` and
`RUNNING` and leaves the tape and the pointer as they were, whatever the earlier run came to (decision D5 of the spec).
(The port the operation comes through is log entry 9.) -/
def Obligations.RunStartsAtEntry : Prop :=
  ∀ s : State, s.cmd = some .run →
    (s.phase = .loaded → s.status ≠ .running → step s = .next { s with pc := 0, status := .running, cmd := none }) ∧
    (∀ t, step s = .next t → s.phase = .loaded ∧ s.status ≠ .running)

/-- R173 and R193: an operation issued during a run is refused; so is a run or a reset before the load has succeeded, and
anything during a load (log entries 9 and 14), a second load (log entry 14), and a load with a buffer of capacity 0 (R75). -/
def Obligations.OperationsOutOfOrderRefused : Prop :=
  ∀ (s : State) (op : HostOp), s.cmd = some op →
    (s.status = .running → step s = .refused .operationDuringRun) ∧
    (s.status ≠ .running → s.phase = .constructed → op = .run ∨ op = .reset → step s = .refused .notLoaded) ∧
    (s.status ≠ .running → (∃ r, s.phase = .compiling r) ∨ (∃ j, s.phase = .pairing j) →
      step s = .refused .operationDuringLoad) ∧
    (∀ src cap later, op = .load src cap later → s.status ≠ .running →
      (s.phase = .loaded → step s = .refused .alreadyLoaded) ∧
      (s.phase = .constructed → cap = 0 → step s = .refused .zeroCapacity))

/-- R178: an inspection between steps or operations gives the tape and the pointer; during a load it is refused (log
entry 20). It is a function of the state, so it changes none (R42). -/
def Obligations.InspectionReadsTapeAndPointer : Prop :=
  ∀ s : State,
    (s.phase = .constructed ∨ s.phase = .loaded → s.inspect = .ok { tape := s.tape, ptr := s.ptr }) ∧
    ((∃ r, s.phase = .compiling r) ∨ (∃ j, s.phase = .pairing j) → s.inspect = .error .inspectDuringLoad)

/-! ### The Run-Length Encoder -/

/-- R78: same kind, room in the count: the count grows by one, the token is consumed, nothing is emitted. -/
def Obligations.RleSameKindCounts : Prop :=
  ∀ (m : CodeMap) (r : RleState) (t : Token) (rest : List Token) (k : RepKind),
    r.src = t :: rest → t.kind = .rep k → r.pendKind = some k → r.pendCnt < 63 →
    r.event m = (.more, { r with pendCnt := r.pendCnt + 1, src := rest })

/-- R79: same kind, count full: the pending run is emitted with count 63 and a run of count 1 begins; with the buffer full,
`REWIND`, the pending run unchanged and the token not consumed. -/
def Obligations.RleFullCountSplits : Prop :=
  ∀ (m : CodeMap) (r : RleState) (t : Token) (rest : List Token) (k : RepKind),
    r.src = t :: rest → t.kind = .rep k → r.pendKind = some k → r.pendCnt = 63 →
    (r.wr = r.cap → r.event m = (.rewind, r)) ∧
    (r.wr ≠ r.cap → r.event m = (.more, { r with
      buf := r.buf ++ [encodeFields m (.rep k) 63], wr := r.wr + 1, pendCnt := 1, src := rest }))

/-- R80: a different token. A pending run is flushed first, on overflow `REWIND` with the pending run kept. Then a
repeatable token starts a run of count 1 with no emission; any other token is emitted at once, and on overflow of that
emission `REWIND` comes with the flush done. -/
def Obligations.RleDifferentToken : Prop :=
  ∀ (m : CodeMap) (r : RleState) (t : Token) (rest : List Token), r.src = t :: rest →
    (∀ k, t.kind = .rep k → r.pendKind = none →
      r.event m = (.more, { r with pendKind := some k, pendCnt := 1, src := rest })) ∧
    (∀ k p, t.kind = .rep k → r.pendKind = some p → p ≠ k →
      (r.wr = r.cap → r.event m = (.rewind, r)) ∧
      (r.wr ≠ r.cap → r.event m = (.more, { r with
        buf := r.buf ++ [encodeFields m (.rep p) (BitVec.ofNat 6 r.pendCnt)], wr := r.wr + 1,
        pendKind := some k, pendCnt := 1, src := rest }))) ∧
    (∀ k, t.kind = .nonrep k → r.pendKind = none →
      (r.wr = r.cap → r.event m = (.rewind, { r with pendKind := none, pendCnt := 0 })) ∧
      (r.wr ≠ r.cap → r.event m = (.more, { r with
        buf := r.buf ++ [encodeFields m (.nonrep k) 0], wr := r.wr + 1, pendKind := none, pendCnt := 0,
        src := rest }))) ∧
    (∀ k p, t.kind = .nonrep k → r.pendKind = some p →
      (r.wr = r.cap → r.event m = (.rewind, r)) ∧
      (r.wr + 1 = r.cap → r.event m = (.rewind, { r with
        buf := r.buf ++ [encodeFields m (.rep p) (BitVec.ofNat 6 r.pendCnt)], wr := r.wr + 1,
        pendKind := none, pendCnt := 0 })) ∧
      (r.wr ≠ r.cap → r.wr + 1 ≠ r.cap → r.event m = (.more, { r with
        buf := r.buf ++ [encodeFields m (.rep p) (BitVec.ofNat 6 r.pendCnt), encodeFields m (.nonrep k) 0],
        wr := r.wr + 2, pendKind := none, pendCnt := 0, src := rest })))

/-- R81: end of input. A pending run is flushed, on overflow `REWIND` with the pending run kept; then `DONE` (the
overflow case is decision D10 of the spec). -/
def Obligations.RleEndOfInput : Prop :=
  ∀ (m : CodeMap) (r : RleState), r.src = [] →
    (r.pendKind = none → r.event m = (.done, { r with pendKind := none, pendCnt := 0 })) ∧
    (∀ p, r.pendKind = some p →
      (r.wr = r.cap → r.event m = (.rewind, r)) ∧
      (r.wr ≠ r.cap → r.event m = (.done, { r with
        buf := r.buf ++ [encodeFields m (.rep p) (BitVec.ofNat 6 r.pendCnt)], wr := r.wr + 1,
        pendKind := none, pendCnt := 0 })))

/-- R83: every head event keeps the RLE's invariants; a `REWIND` return has `wr = B` and consumed nothing; a head event
that goes on consumed one token; `DONE` comes only at the end of input, with nothing pending. -/
def Obligations.RleKeepsItsInvariants : Prop :=
  ∀ (m : CodeMap) (r r1 : RleState) (v : RleVerdict), RleInv r → r.event m = (v, r1) →
    RleInv r1 ∧
    (v = .rewind → r1.wr = r1.cap ∧ r1.src = r.src) ∧
    (v = .more → r.src.length = r1.src.length + 1) ∧
    (v = .done → r.src = [] ∧ r1.src = [] ∧ r1.pendKind = none)

/-- R85 (and R86 steps 1 to 4): whatever the capacities of the buffers, as long as none is 0, a load compiles the token
sequence to its expansion by R54, byte for byte, and hands it to the pairing pass; nothing else has changed. (The load in
steps, and the last capacity serving again, are the model's choices, log entries 12 and 13.) -/
def Obligations.LoadCompilesTheExpansion : Prop :=
  ∀ (s : State) (src : List Token) (cap : Nat) (later : List Nat),
    s.phase = .constructed → s.status ≠ .running → s.cmd = some (.load src cap later) →
    1 ≤ cap → (∀ c ∈ later, 1 ≤ c) → (expandTokens src).length ≤ s.cfg.pMax →
    ∃ k, steps k s = .next { s with
      prog := (expandTokens src).map (encode s.cfg.codeMap), jt := [], phase := .pairing { stack := [], scan := 0 },
      cmd := none }

/-- R86: "If `P` would exceed `P_MAX`, the load is refused" (decision D15 of the spec; where the check stands is log
entry 24, the load in steps and the last capacity serving again are log entries 12 and 13). -/
def Obligations.OverlongProgramRefused : Prop :=
  ∀ (s : State) (src : List Token) (cap : Nat) (later : List Nat),
    s.phase = .constructed → s.status ≠ .running → s.cmd = some (.load src cap later) →
    1 ≤ cap → (∀ c ∈ later, 1 ≤ c) → s.cfg.pMax < (expandTokens src).length →
    ∃ k, steps k s = .refused .programTooLong

/-- R54 and R84: every instruction of an expansion is well-formed, so its byte decodes to it; and a run of `k ≥ 1` equal
repeatable tokens alone gives `ceil(k / 63)` instructions. -/
def Obligations.ExpansionIsWellFormed : Prop :=
  (∀ (src : List Token) (i : Instr), i ∈ expandTokens src → i.wf = true) ∧
  (∀ (t : Token) (r : RepKind) (k : Nat), t.kind = .rep r → 1 ≤ k →
    (expandTokens (List.replicate k t)).length = (k + 62) / 63)

/-! ### The Jump-Pairing Unit -/

/-- R91, R92, R93 and R94, index by index: a loop-open is pushed; a loop-close takes the top of the stack and records the
pair both ways, or faults with its index on an empty stack; any other byte changes nothing; at the end, an empty stack means
the load has succeeded, with the VM state of R23, and the top of a stack that is not empty is reported (the indices the
faults carry are decision D4 of the spec; one index a step is log entry 12). -/
def Obligations.PairingPassStep : Prop :=
  ∀ (s : State) (j : JpuState), s.cmd = none → s.phase = .pairing j →
    (OpenAt s.cfg.codeMap s.prog j.scan →
      step s = .next { s with phase := .pairing { stack := j.scan :: j.stack, scan := j.scan + 1 } }) ∧
    (CloseAt s.cfg.codeMap s.prog j.scan →
      (j.stack = [] → step s = .fault (.unmatchedLoopClose j.scan)) ∧
      (∀ o st, j.stack = o :: st → o ≠ j.scan → ∃ t, step s = .next t ∧
        Table.lookup t.jt o = some j.scan ∧ Table.lookup t.jt j.scan = some o ∧
        (∀ i, i ≠ o → i ≠ j.scan → Table.lookup t.jt i = Table.lookup s.jt i) ∧
        t = { s with jt := t.jt, phase := .pairing { stack := st, scan := j.scan + 1 } })) ∧
    (j.scan < s.prog.length → ¬OpenAt s.cfg.codeMap s.prog j.scan → ¬CloseAt s.cfg.codeMap s.prog j.scan →
      step s = .next { s with phase := .pairing { stack := j.stack, scan := j.scan + 1 } }) ∧
    (s.prog.length ≤ j.scan →
      (j.stack = [] → step s = .next { s with phase := .loaded, tape := [], ptr := 0, pc := 0, status := .idle }) ∧
      (∀ i st, j.stack = i :: st → step s = .fault (.unmatchedLoopOpen i)))

/-- R95 and R97: from its start, the pass over a balanced program succeeds in one step for each byte and one for its end,
and the table it built is symmetric, complete, ordered, properly nested and in range. (The count of `P + 1` steps is the
model's choice of one scan index a step, log entry 12.) -/
def Obligations.BalancedProgramIsPaired : Prop :=
  ∀ s : State, s.cmd = none → s.phase = .pairing { stack := [], scan := 0 } → s.jt = [] →
    Balanced s.cfg.codeMap s.prog →
    ∃ t, steps (s.prog.length + 1) s = .next t ∧ Paired s.cfg.codeMap s.prog t.jt ∧
      t = { s with jt := t.jt, phase := .loaded, tape := [], ptr := 0, pc := 0, status := .idle }

/-- R92 and R95: the first loop-close with nothing open ends the pass at once, with its index; no later index is
examined. (The index the fault carries is decision D4 of the spec, log entry 23; the count of `i` steps is the model's choice
of one scan index a step, log entry 12.) -/
def Obligations.UnmatchedCloseRejects : Prop :=
  ∀ (s : State) (i : Nat), s.cmd = none → s.phase = .pairing { stack := [], scan := 0 } → s.jt = [] →
    FirstUnmatchedClose s.cfg.codeMap s.prog i →
    ∃ t, steps i s = .next t ∧ step t = .fault (.unmatchedLoopClose i)

/-- R94 and R95: a program with no unmatched loop-close that is not balanced is rejected at the end of the pass, with the
index of the last unmatched loop-open. (The index the fault carries is decision D4 of the spec, log entry 23; the count of `P`
steps is the model's choice of one scan index a step, log entry 12.) -/
def Obligations.UnmatchedOpenRejects : Prop :=
  ∀ s : State, s.cmd = none → s.phase = .pairing { stack := [], scan := 0 } → s.jt = [] →
    NoUnmatchedClose s.cfg.codeMap s.prog → depth s.cfg.codeMap s.prog s.prog.length ≠ 0 →
    ∃ i t, LastUnmatchedOpen s.cfg.codeMap s.prog i ∧
      steps s.prog.length s = .next t ∧ step t = .fault (.unmatchedLoopOpen i)
end

