-- ==== Sys2Proof/Laws/State.lean ====
section
/-! SUPPORT. What each update of the state does to each field: one lemma per field, true by definition. -/

namespace Sys2Proof.Machine

/-! ### `pc <- pc + 1` -/

@[simp] theorem State.advance_cfg (s : State) : s.advance.cfg = s.cfg := rfl
@[simp] theorem State.advance_tape (s : State) : s.advance.tape = s.tape := rfl
@[simp] theorem State.advance_ptr (s : State) : s.advance.ptr = s.ptr := rfl
@[simp] theorem State.advance_pc (s : State) : s.advance.pc = s.pc + 1 := rfl
@[simp] theorem State.advance_prog (s : State) : s.advance.prog = s.prog := rfl
@[simp] theorem State.advance_jt (s : State) : s.advance.jt = s.jt := rfl
@[simp] theorem State.advance_status (s : State) : s.advance.status = s.status := rfl
@[simp] theorem State.advance_phase (s : State) : s.advance.phase = s.phase := rfl
@[simp] theorem State.advance_cmd (s : State) : s.advance.cmd = s.cmd := rfl
@[simp] theorem State.advance_inAnswers (s : State) : s.advance.inAnswers = s.inAnswers := rfl
@[simp] theorem State.advance_outAnswers (s : State) : s.advance.outAnswers = s.outAnswers := rfl
@[simp] theorem State.advance_outStream (s : State) : s.advance.outStream = s.outStream := rfl

/-! ### `pc <- target` -/

@[simp] theorem State.jump_cfg (s : State) (j : Nat) : (s.jump j).cfg = s.cfg := rfl
@[simp] theorem State.jump_tape (s : State) (j : Nat) : (s.jump j).tape = s.tape := rfl
@[simp] theorem State.jump_ptr (s : State) (j : Nat) : (s.jump j).ptr = s.ptr := rfl
@[simp] theorem State.jump_pc (s : State) (j : Nat) : (s.jump j).pc = j := rfl
@[simp] theorem State.jump_prog (s : State) (j : Nat) : (s.jump j).prog = s.prog := rfl
@[simp] theorem State.jump_jt (s : State) (j : Nat) : (s.jump j).jt = s.jt := rfl
@[simp] theorem State.jump_status (s : State) (j : Nat) : (s.jump j).status = s.status := rfl
@[simp] theorem State.jump_phase (s : State) (j : Nat) : (s.jump j).phase = s.phase := rfl
@[simp] theorem State.jump_cmd (s : State) (j : Nat) : (s.jump j).cmd = s.cmd := rfl
@[simp] theorem State.jump_inAnswers (s : State) (j : Nat) : (s.jump j).inAnswers = s.inAnswers := rfl
@[simp] theorem State.jump_outAnswers (s : State) (j : Nat) : (s.jump j).outAnswers = s.outAnswers := rfl
@[simp] theorem State.jump_outStream (s : State) (j : Nat) : (s.jump j).outStream = s.outStream := rfl

/-! ### `ptr <- p` -/

@[simp] theorem State.setPtr_cfg (s : State) (p : Nat) : (s.setPtr p).cfg = s.cfg := rfl
@[simp] theorem State.setPtr_tape (s : State) (p : Nat) : (s.setPtr p).tape = s.tape := rfl
@[simp] theorem State.setPtr_ptr (s : State) (p : Nat) : (s.setPtr p).ptr = p := rfl
@[simp] theorem State.setPtr_pc (s : State) (p : Nat) : (s.setPtr p).pc = s.pc := rfl
@[simp] theorem State.setPtr_prog (s : State) (p : Nat) : (s.setPtr p).prog = s.prog := rfl
@[simp] theorem State.setPtr_jt (s : State) (p : Nat) : (s.setPtr p).jt = s.jt := rfl
@[simp] theorem State.setPtr_status (s : State) (p : Nat) : (s.setPtr p).status = s.status := rfl
@[simp] theorem State.setPtr_phase (s : State) (p : Nat) : (s.setPtr p).phase = s.phase := rfl
@[simp] theorem State.setPtr_cmd (s : State) (p : Nat) : (s.setPtr p).cmd = s.cmd := rfl
@[simp] theorem State.setPtr_inAnswers (s : State) (p : Nat) : (s.setPtr p).inAnswers = s.inAnswers := rfl
@[simp] theorem State.setPtr_outAnswers (s : State) (p : Nat) : (s.setPtr p).outAnswers = s.outAnswers := rfl
@[simp] theorem State.setPtr_outStream (s : State) (p : Nat) : (s.setPtr p).outStream = s.outStream := rfl

/-! ### `MemWrite(ptr, v)` (R31) -/

@[simp] theorem State.memWrite_cfg (s : State) (v : Nat) : (s.memWrite v).cfg = s.cfg := rfl
@[simp] theorem State.memWrite_tape (s : State) (v : Nat) : (s.memWrite v).tape = Memory.write s.tape s.ptr (v % s.cfg.width.modulus) := rfl
@[simp] theorem State.memWrite_ptr (s : State) (v : Nat) : (s.memWrite v).ptr = s.ptr := rfl
@[simp] theorem State.memWrite_pc (s : State) (v : Nat) : (s.memWrite v).pc = s.pc := rfl
@[simp] theorem State.memWrite_prog (s : State) (v : Nat) : (s.memWrite v).prog = s.prog := rfl
@[simp] theorem State.memWrite_jt (s : State) (v : Nat) : (s.memWrite v).jt = s.jt := rfl
@[simp] theorem State.memWrite_status (s : State) (v : Nat) : (s.memWrite v).status = s.status := rfl
@[simp] theorem State.memWrite_phase (s : State) (v : Nat) : (s.memWrite v).phase = s.phase := rfl
@[simp] theorem State.memWrite_cmd (s : State) (v : Nat) : (s.memWrite v).cmd = s.cmd := rfl
@[simp] theorem State.memWrite_inAnswers (s : State) (v : Nat) : (s.memWrite v).inAnswers = s.inAnswers := rfl
@[simp] theorem State.memWrite_outAnswers (s : State) (v : Nat) : (s.memWrite v).outAnswers = s.outAnswers := rfl
@[simp] theorem State.memWrite_outStream (s : State) (v : Nat) : (s.memWrite v).outStream = s.outStream := rfl

/-! ### raising a run-time fault (R163) -/

@[simp] theorem State.raise_cfg (s : State) (c : FaultCode) : (s.raise c).cfg = s.cfg := rfl
@[simp] theorem State.raise_tape (s : State) (c : FaultCode) : (s.raise c).tape = s.tape := rfl
@[simp] theorem State.raise_ptr (s : State) (c : FaultCode) : (s.raise c).ptr = s.ptr := rfl
@[simp] theorem State.raise_pc (s : State) (c : FaultCode) : (s.raise c).pc = s.pc := rfl
@[simp] theorem State.raise_prog (s : State) (c : FaultCode) : (s.raise c).prog = s.prog := rfl
@[simp] theorem State.raise_jt (s : State) (c : FaultCode) : (s.raise c).jt = s.jt := rfl
@[simp] theorem State.raise_status (s : State) (c : FaultCode) : (s.raise c).status = .fault c s.pc := rfl
@[simp] theorem State.raise_phase (s : State) (c : FaultCode) : (s.raise c).phase = s.phase := rfl
@[simp] theorem State.raise_cmd (s : State) (c : FaultCode) : (s.raise c).cmd = s.cmd := rfl
@[simp] theorem State.raise_inAnswers (s : State) (c : FaultCode) : (s.raise c).inAnswers = s.inAnswers := rfl
@[simp] theorem State.raise_outAnswers (s : State) (c : FaultCode) : (s.raise c).outAnswers = s.outAnswers := rfl
@[simp] theorem State.raise_outStream (s : State) (c : FaultCode) : (s.raise c).outStream = s.outStream := rfl

/-! ### the cell after a failed input (R130) -/

@[simp] theorem State.failedInputCell_cfg (s : State) : s.failedInputCell.cfg = s.cfg := by
  unfold State.failedInputCell; split <;> rfl

@[simp] theorem State.failedInputCell_ptr (s : State) : s.failedInputCell.ptr = s.ptr := by
  unfold State.failedInputCell; split <;> rfl

@[simp] theorem State.failedInputCell_pc (s : State) : s.failedInputCell.pc = s.pc := by
  unfold State.failedInputCell; split <;> rfl

@[simp] theorem State.failedInputCell_prog (s : State) : s.failedInputCell.prog = s.prog := by
  unfold State.failedInputCell; split <;> rfl

@[simp] theorem State.failedInputCell_jt (s : State) : s.failedInputCell.jt = s.jt := by
  unfold State.failedInputCell; split <;> rfl

@[simp] theorem State.failedInputCell_status (s : State) : s.failedInputCell.status = s.status := by
  unfold State.failedInputCell; split <;> rfl

@[simp] theorem State.failedInputCell_phase (s : State) : s.failedInputCell.phase = s.phase := by
  unfold State.failedInputCell; split <;> rfl

@[simp] theorem State.failedInputCell_cmd (s : State) : s.failedInputCell.cmd = s.cmd := by
  unfold State.failedInputCell; split <;> rfl

@[simp] theorem State.failedInputCell_inAnswers (s : State) : s.failedInputCell.inAnswers = s.inAnswers := by
  unfold State.failedInputCell; split <;> rfl

@[simp] theorem State.failedInputCell_outAnswers (s : State) : s.failedInputCell.outAnswers = s.outAnswers := by
  unfold State.failedInputCell; split <;> rfl

@[simp] theorem State.failedInputCell_outStream (s : State) : s.failedInputCell.outStream = s.outStream := by
  unfold State.failedInputCell; split <;> rfl

theorem State.failedInputCell_unchanged (s : State) (h : s.cfg.inputFailCell = .unchanged) :
    s.failedInputCell = s := by
  simp [State.failedInputCell, h]

theorem State.failedInputCell_zeroed (s : State) (h : s.cfg.inputFailCell = .zeroed) :
    s.failedInputCell = s.memWrite 0 := by
  simp [State.failedInputCell, h, wauZero]

/-! ### going on from an outcome -/

@[simp] theorem andThen_next (s : State) (f : State → Result) : andThen (.next s) f = f s := rfl

@[simp] theorem andThen_fault (r : Fault) (f : State → Result) : andThen (.fault r) f = .fault r := rfl

@[simp] theorem andThen_refused (r : Refusal) (f : State → Result) : andThen (.refused r) f = .refused r := rfl

theorem andThen_assoc (o : Result) (f g : State → Result) :
    andThen (andThen o f) g = andThen o (fun s => andThen (f s) g) := by
  cases o <;> rfl

/-- Steps compose. -/
theorem steps_add (a b : Nat) (s : State) : steps (a + b) s = andThen (steps a s) (steps b) := by
  induction a generalizing s with
  | zero => simp [steps]
  | succ a ih =>
    rw [Nat.add_right_comm]
    simp only [steps, andThen_assoc]
    cases step s <;> simp [ih]

theorem steps_one (s : State) : steps 1 s = step s := by
  simp only [steps]
  cases step s <;> rfl

end Sys2Proof.Machine
end

