-- ==== Sys2Proof/Laws/Codec.lean ====
section
/-! SUPPORT. The codec's small laws: the fields of a byte built from two fields, and a column's two directions. -/

namespace Sys2Proof

/-- The fields of `{K, N}` are `K` and `N`. -/
theorem decodeFields_append (K : Code) (N : Count) : decodeFields (K ++ N) = (K, N) := by
  revert K N
  decide

/-- A byte is its two fields. -/
theorem append_decodeFields (b : Byte) : ((decodeFields b).1 ++ (decodeFields b).2 : BitVec 8) = b := by
  revert b
  decide

/-- A column read at the code of a kind of its own gives that kind. -/
theorem Column.get_codeOf {α : Type} [DecidableEq α] (c : Column α) (k : α)
    (h : c.c00 = k ∨ c.c01 = k ∨ c.c10 = k ∨ c.c11 = k) : c.get (c.codeOf k) = k := by
  unfold Column.codeOf
  by_cases h0 : c.c00 = k
  · rw [if_pos h0]; exact h0
  · by_cases h1 : c.c01 = k
    · rw [if_neg h0, if_pos h1]; exact h1
    · by_cases h2 : c.c10 = k
      · rw [if_neg h0, if_neg h1, if_pos h2]; exact h2
      · rw [if_neg h0, if_neg h1, if_neg h2]
        exact ((h.resolve_left h0).resolve_left h1).resolve_left h2

/-- In a column of four different kinds, the code of the kind at `K` is `K`. -/
theorem Column.codeOf_get {α : Type} [DecidableEq α] (c : Column α) (h : c.wf) (K : Code) :
    c.codeOf (c.get K) = K := by
  obtain ⟨h1, h2, h3, h4, h5, h6⟩ := h
  have hK : K = 0 ∨ K = 1 ∨ K = 2 ∨ K = 3 := by revert K; decide
  rcases hK with rfl | rfl | rfl | rfl <;> simp [Column.get, Column.codeOf, *]

/-- A bijective repeatable column lists every kind. -/
theorem repColumn_onto (c : Column RepKind) (h : c.wf) (k : RepKind) :
    c.c00 = k ∨ c.c01 = k ∨ c.c10 = k ∨ c.c11 = k := by
  obtain ⟨a, b, d, e⟩ := c
  revert h
  cases a <;> cases b <;> cases d <;> cases e <;> cases k <;> decide

/-- A bijective non-repeatable column lists every kind. -/
theorem nonRepColumn_onto (c : Column NonRepKind) (h : c.wf) (k : NonRepKind) :
    c.c00 = k ∨ c.c01 = k ∨ c.c10 = k ∨ c.c11 = k := by
  obtain ⟨a, b, d, e⟩ := c
  revert h
  cases a <;> cases b <;> cases d <;> cases e <;> cases k <;> decide

/-- The repeatable column of a legal map, read at a kind's code. -/
theorem CodeMap.rep_get_code (m : CodeMap) (h : m.wf) (k : RepKind) : m.rep.get (m.code (.rep k)) = k :=
  m.rep.get_codeOf k (repColumn_onto m.rep h.1 k)

/-- The non-repeatable column of a legal map, read at a kind's code. -/
theorem CodeMap.nonrep_get_code (m : CodeMap) (h : m.wf) (k : NonRepKind) :
    m.nonrep.get (m.code (.nonrep k)) = k :=
  m.nonrep.get_codeOf k (nonRepColumn_onto m.nonrep h.2 k)

/-- This hardware's code map is legal. -/
theorem CodeMap.default_wf : CodeMap.default.wf := by decide

end Sys2Proof
end

