-- ==== Sys2Proof/Laws/Memory.lean ====
section
/-! SUPPORT. The tape and the jump table as lists: a read after a write, and that every write keeps the canonical form. -/

namespace Sys2Proof

theorem Width.modulus_pos (w : Width) : 0 < w.modulus := by cases w <;> decide

end Sys2Proof

namespace Sys2Proof.Machine

/-- A write is seen at its index and nowhere else. -/
theorem Memory.read_write (m : Memory) (p q : Nat) (v : Nat) :
    (Memory.write m p v).read q = if q = p then v else m.read q := by
  induction m with
  | nil =>
    by_cases hv : v = 0 <;> by_cases hq : q = p <;> simp [Memory.write, Memory.read, hv, hq]
  | cons c m ih =>
    obtain ⟨k, u⟩ := c
    rw [Memory.write]
    by_cases hpk : p = k
    · subst hpk
      by_cases hv : v = 0
      · subst hv
        simp only [if_true, ih, Memory.read]
        by_cases hq : q = p <;> simp [hq]
      · by_cases hq : q = p <;> simp [Memory.read, hv, hq]
    · by_cases hlt : p < k ∧ v ≠ 0
      · by_cases hq : q = p <;> simp [Memory.read, hpk, hlt, hq]
      · rw [if_neg hpk, if_neg hlt]
        simp only [Memory.read, ih]
        by_cases hqk : q = k
        · have : q ≠ p := fun h => hpk (h.symm.trans hqk)
          rw [if_pos hqk, if_pos hqk, if_neg this]
        · rw [if_neg hqk, if_neg hqk]

/-- The entries after a write: the new one, or old ones. -/
theorem Memory.mem_write (m : Memory) (p : Nat) (v : Nat) (c : Nat × Nat) (h : c ∈ Memory.write m p v) :
    (c = (p, v) ∧ v ≠ 0) ∨ c ∈ m := by
  induction m with
  | nil =>
    by_cases hv : v = 0
    · simp [Memory.write, hv] at h
    · simp only [Memory.write, if_neg hv, List.mem_singleton] at h
      exact .inl ⟨h, hv⟩
  | cons d m ih =>
    obtain ⟨k, u⟩ := d
    rw [Memory.write] at h
    split at h
    · split at h
      · exact (ih h).imp id (List.mem_cons_of_mem _)
      · rename_i hv
        rcases List.mem_cons.mp h with h | h
        · exact .inl ⟨h, hv⟩
        · exact .inr (List.mem_cons_of_mem _ h)
    · split at h
      · rename_i hlt
        rcases List.mem_cons.mp h with h | h
        · exact .inl ⟨h, hlt.2⟩
        · exact .inr h
      · rcases List.mem_cons.mp h with h | h
        · exact .inr (h ▸ List.mem_cons_self)
        · exact (ih h).imp id (List.mem_cons_of_mem _)

/-- A write keeps the indexes strictly rising. -/
theorem Memory.write_rising (m : Memory) (p : Nat) (v : Nat) (h : m.Pairwise (fun a b => a.1 < b.1)) :
    (Memory.write m p v).Pairwise (fun a b => a.1 < b.1) := by
  induction m with
  | nil => by_cases hv : v = 0 <;> simp [Memory.write, hv]
  | cons d m ih =>
    obtain ⟨k, u⟩ := d
    obtain ⟨hd, hm⟩ := List.pairwise_cons.mp h
    rw [Memory.write]
    split
    · split
      · exact ih hm
      · rename_i hpk _
        exact List.pairwise_cons.mpr ⟨fun c hc => hpk ▸ hd c hc, hm⟩
    · split
      · rename_i hlt
        refine List.pairwise_cons.mpr ⟨fun c hc => ?_, h⟩
        rcases List.mem_cons.mp hc with hc | hc
        · exact hc ▸ hlt.1
        · exact hlt.1.trans (hd c hc)
      · rename_i hpk hlt
        refine List.pairwise_cons.mpr ⟨fun c hc => ?_, ih hm⟩
        rcases Memory.mem_write m p v c hc with hc | hc
        · obtain ⟨rfl, hv⟩ := hc
          have : ¬p < k := fun h => hlt ⟨h, hv⟩
          show k < p
          omega
        · exact hd c hc

/-- A write of a value in `[0, 2^W)` inside the tape keeps the canonical form. -/
theorem Memory.wf_write {w : Width} {L : Nat} {m : Memory} (h : Memory.wf w L m) {p : Nat} (hp : p < L) {v : Nat}
    (hv : v < w.modulus) : Memory.wf w L (Memory.write m p v) := by
  refine ⟨Memory.write_rising m p v h.1, fun c hc => ?_⟩
  rcases Memory.mem_write m p v c hc with ⟨rfl, h0⟩ | hc
  · exact ⟨hp, h0, hv⟩
  · exact h.2 c hc

/-- The empty tape is in canonical form: every cell 0. -/
theorem Memory.wf_nil (w : Width) (L : Nat) : Memory.wf w L [] := by simp [Memory.wf]

/-- A cell of a canonical tape is in `[0, 2^W)`. -/
theorem Memory.read_lt {w : Width} {L : Nat} {m : Memory} (h : Memory.wf w L m) (p : Nat) : m.read p < w.modulus := by
  replace h := h.2
  induction m with
  | nil => exact Width.modulus_pos w
  | cons c m ih =>
    obtain ⟨k, u⟩ := c
    rw [Memory.read]
    split
    · exact (h (k, u) List.mem_cons_self).2.2
    · exact ih fun c hc => h c (List.mem_cons_of_mem _ hc)

/-- An index below every listed one holds 0. -/
theorem Memory.read_below {m : Memory} {p : Nat} (h : ∀ c ∈ m, p < c.1) : m.read p = 0 := by
  induction m with
  | nil => rfl
  | cons c m ih =>
    obtain ⟨k, u⟩ := c
    have hk : p < k := h (k, u) List.mem_cons_self
    rw [Memory.read, if_neg (by omega)]
    exact ih fun c hc => h c (List.mem_cons_of_mem _ hc)

/-- Writing 0 below every listed index changes nothing. -/
theorem Memory.write_zero_below {m : Memory} {p : Nat} (h : ∀ c ∈ m, p < c.1) : Memory.write m p 0 = m := by
  induction m with
  | nil => rfl
  | cons c m ih =>
    have hk : p < c.1 := h c List.mem_cons_self
    rw [Memory.write, if_neg (by omega), if_neg (by simp), ih fun c hc => h c (List.mem_cons_of_mem _ hc)]

/-- Writing another value below every listed index puts it in front. -/
theorem Memory.write_below {m : Memory} {p v : Nat} (hv : v ≠ 0) (h : ∀ c ∈ m, p < c.1) :
    Memory.write m p v = (p, v) :: m := by
  cases m with
  | nil => simp [Memory.write, hv]
  | cons c m =>
    have hk : p < c.1 := h c List.mem_cons_self
    rw [Memory.write, if_neg (by omega), if_pos ⟨hk, hv⟩]

/-- The later of two writes at one index stands alone. -/
theorem Memory.write_write {m : Memory} (h : m.Pairwise (fun a b => a.1 < b.1)) (p u v : Nat) :
    Memory.write (Memory.write m p u) p v = Memory.write m p v := by
  induction m with
  | nil => by_cases hu : u = 0 <;> by_cases hv : v = 0 <;> simp [Memory.write, hu, hv]
  | cons c m ih =>
    obtain ⟨k, x⟩ := c
    obtain ⟨hd, hm⟩ := List.pairwise_cons.mp h
    rcases Nat.lt_trichotomy p k with hlt | rfl | hgt
    · have hall : ∀ c ∈ (k, x) :: m, p < c.1 := fun c hc => by
        rcases List.mem_cons.mp hc with rfl | hc
        · exact hlt
        · exact hlt.trans (hd c hc)
      by_cases hu : u = 0
      · rw [hu, Memory.write_zero_below hall]
      · rw [Memory.write_below hu hall]
        by_cases hv : v = 0
        · simp only [hv, Memory.write, if_true]
        · rw [Memory.write_below hv hall, Memory.write, if_pos rfl, if_neg hv]
    · by_cases hv : v = 0
      · by_cases hu : u = 0 <;> simp [Memory.write, hu, hv, Memory.write_zero_below hd]
      · by_cases hu : u = 0 <;> simp [Memory.write, hu, hv, Memory.write_zero_below hd, Memory.write_below hv hd]
    · have e : ∀ (w : Nat) (m : Memory), Memory.write ((k, x) :: m) p w = (k, x) :: Memory.write m p w := fun w m => by
        rw [Memory.write, if_neg (by omega), if_neg (by omega)]
      rw [e, e, e, ih hm]

/-! ### The jump table -/

/-- An entry written is seen at its index and nowhere else. -/
theorem Table.lookup_set (t : Table) (i j k : Nat) :
    (Table.set t i j).lookup k = if k = i then some j else t.lookup k := by
  induction t with
  | nil => simp [Table.set, Table.lookup]
  | cons c t ih =>
    obtain ⟨a, u⟩ := c
    rw [Table.set]
    split
    · rename_i h
      subst h
      by_cases hk : k = i <;> simp [Table.lookup, hk]
    · split
      · by_cases hk : k = i <;> simp [Table.lookup, hk]
      · rename_i hia _
        simp only [Table.lookup, ih]
        by_cases hka : k = a
        · have : k ≠ i := fun h => hia (h.symm.trans hka)
          rw [if_pos hka, if_pos hka, if_neg this]
        · rw [if_neg hka, if_neg hka]

theorem Table.mem_set (t : Table) (i j : Nat) (c : Nat × Nat) (h : c ∈ Table.set t i j) : c = (i, j) ∨ c ∈ t := by
  induction t with
  | nil => exact .inl (List.mem_singleton.mp h)
  | cons d t ih =>
    obtain ⟨a, u⟩ := d
    rw [Table.set] at h
    split at h
    · exact (List.mem_cons.mp h).imp id (List.mem_cons_of_mem _)
    · split at h
      · exact List.mem_cons.mp h
      · rcases List.mem_cons.mp h with h | h
        · exact .inr (h ▸ List.mem_cons_self)
        · exact (ih h).imp id (List.mem_cons_of_mem _)

/-- Writing an entry keeps the canonical form. -/
theorem Table.wf_set {t : Table} (h : Table.wf t) (i j : Nat) : Table.wf (Table.set t i j) := by
  induction t with
  | nil => simp [Table.set, Table.wf]
  | cons d t ih =>
    obtain ⟨a, u⟩ := d
    obtain ⟨hd, ht⟩ := List.pairwise_cons.mp h
    rw [Table.set]
    split
    · rename_i hia
      exact List.pairwise_cons.mpr ⟨fun c hc => hia ▸ hd c hc, ht⟩
    · split
      · rename_i hlt
        refine List.pairwise_cons.mpr ⟨fun c hc => ?_, h⟩
        rcases List.mem_cons.mp hc with hc | hc
        · exact hc ▸ hlt
        · exact lt_trans hlt (hd c hc)
      · rename_i hia hlt
        refine List.pairwise_cons.mpr ⟨fun c hc => ?_, ih ht⟩
        rcases Table.mem_set t i j c hc with rfl | hc
        · show a < i
          omega
        · exact hd c hc

theorem Table.wf_nil : Table.wf [] := List.Pairwise.nil

end Sys2Proof.Machine
end

