-- ==== Sys2Proof/Laws/Wau.lean ====
section
/-! SUPPORT. The ranges of the WAU's results (R145). -/

namespace Sys2Proof.Machine

theorem wauCellAdd_lt (w : Width) (c n : Nat) : wauCellAdd w c n < w.modulus := Nat.mod_lt _ w.modulus_pos

theorem wauCellSub_lt (w : Width) (c n : Nat) : wauCellSub w c n < w.modulus := by
  have hw : (0 : Int) < w.modulus := by exact_mod_cast w.modulus_pos
  have := Int.emod_lt_of_pos ((c : Int) - n) hw
  have := Int.emod_nonneg ((c : Int) - n) hw.ne'
  unfold wauCellSub
  omega

theorem wauPtrAdd_lt {L : Nat} (hL : 1 ≤ L) (p n : Nat) : wauPtrAdd L p n < L := Nat.mod_lt _ hL

theorem wauPtrSub_lt {L : Nat} (hL : 1 ≤ L) (p n : Nat) : wauPtrSub L p n < L := by
  have hw : (0 : Int) < L := by exact_mod_cast hL
  have := Int.emod_lt_of_pos ((p : Int) - n) hw
  have := Int.emod_nonneg ((p : Int) - n) hw.ne'
  unfold wauPtrSub
  omega

/-- A byte fits a cell of every legal width (R129). -/
theorem wauZext8_lt (w : Width) (x : Byte) : wauZext8 x < w.modulus := by
  have hx := x.isLt
  have : 2 ^ 8 ≤ w.modulus := by cases w <;> decide
  unfold wauZext8
  omega

/-- The zero test is on the whole cell (R149). -/
@[simp] theorem wauIsZero_iff (c : Nat) : wauIsZero c = true ↔ c = 0 := by simp [wauIsZero]

end Sys2Proof.Machine
end

