-- ==== Sys2Proof/Laws/Ops.lean ====
section
/-! SUPPORT. One lemma for each shared operation, saying everything it can do. -/

namespace Sys2Proof.Machine

/-- With the pointer in range, the cell is read and the instruction goes on. -/
theorem State.onCell_of_lt {s : State} (h : s.ptr < s.cfg.tapeLen) (k : Nat → Result) : s.onCell k = k s.cell :=
  if_pos h

/-- With the pointer out of range, the access faults. -/
theorem State.onCell_of_ge {s : State} (h : s.cfg.tapeLen ≤ s.ptr) (k : Nat → Result) :
    s.onCell k = .fault (.tapeIndexOutOfRange s.ptr) :=
  if_neg (by omega)

/-- An instruction on the cell that completes had the pointer in range. -/
theorem State.onCell_next {s t : State} {k : Nat → Result} (h : s.onCell k = .next t) :
    s.ptr < s.cfg.tapeLen ∧ k s.cell = .next t := by
  unfold State.onCell at h
  split at h
  · exact ⟨‹_›, h⟩
  · cases h

/-- `MemWrite` of a value in `[0, 2^W)` stores that value (R31: "this reduction is an identity"), and touches no other
cell (R156). -/
theorem State.read_memWrite (s : State) {v : Nat} (hv : v < s.cfg.width.modulus) (q : Nat) :
    (s.memWrite v).tape.read q = if q = s.ptr then v else s.tape.read q := by
  rw [State.memWrite_tape, Memory.read_write, Nat.mod_eq_of_lt hv]

/-- `MemWrite` inside the tape keeps the canonical form. -/
theorem State.wf_memWrite {s : State} (h : Memory.wf s.cfg.width s.cfg.tapeLen s.tape) (hp : s.ptr < s.cfg.tapeLen)
    (v : Nat) : Memory.wf s.cfg.width s.cfg.tapeLen (s.memWrite v).tape :=
  Memory.wf_write h hp (Nat.mod_lt _ s.cfg.width.modulus_pos)

theorem State.wf_failedInputCell {s : State} (h : Memory.wf s.cfg.width s.cfg.tapeLen s.tape)
    (hp : s.ptr < s.cfg.tapeLen) : Memory.wf s.cfg.width s.cfg.tapeLen s.failedInputCell.tape := by
  unfold State.failedInputCell
  split
  · exact h
  · exact State.wf_memWrite h hp _

/-- The three things `InRead()` can come to (R171). -/
theorem State.inRead_cases (s : State) :
    (s.inAnswers = [] ∧ s.inRead = .hold) ∨
    (∃ b as, s.inAnswers = .byte b :: as ∧ s.inRead = .ok b { s with inAnswers := as }) ∨
    (∃ a as, s.inAnswers = a :: as ∧ (a = .error ∨ a = .endOfStream) ∧ s.inRead = .err { s with inAnswers := as }) := by
  rcases h : s.inAnswers with _ | ⟨a, as⟩
  · exact .inl ⟨rfl, by simp [State.inRead, h]⟩
  · rcases a with b | _ | _
    · exact .inr (.inl ⟨b, as, rfl, by simp [State.inRead, h]⟩)
    · exact .inr (.inr ⟨_, as, rfl, .inl rfl, by simp [State.inRead, h]⟩)
    · exact .inr (.inr ⟨_, as, rfl, .inr rfl, by simp [State.inRead, h]⟩)

/-- The three things `OutWrite(v)` can come to (R172). -/
theorem State.outWrite_cases (s : State) (v : Byte) :
    (s.outAnswers = [] ∧ s.outWrite v = .hold) ∨
    (∃ as, s.outAnswers = .ok :: as ∧
      s.outWrite v = .ok () { s with outAnswers := as, outStream := s.outStream ++ [v] }) ∨
    (∃ as, s.outAnswers = .error :: as ∧ s.outWrite v = .err { s with outAnswers := as }) := by
  rcases h : s.outAnswers with _ | ⟨a, as⟩
  · exact .inl ⟨rfl, by simp [State.outWrite, h]⟩
  · cases a
    · exact .inr (.inl ⟨as, rfl, by simp [State.outWrite, h]⟩)
    · exact .inr (.inr ⟨as, rfl, by simp [State.outWrite, h]⟩)

end Sys2Proof.Machine
end

