-- ==== Sys2Proof/Laws/Exec.lean ====
section
/-! SUPPORT. For each instruction, everything it can do when it answers a next state; and the frame common to all eight. -/

namespace Sys2Proof.Machine

theorem execMvr_next {n : Count} {s t : State} (h : execMvr n s = .next t) :
    t = (s.setPtr (wauPtrAdd s.cfg.tapeLen s.ptr (countOf n))).advance := by
  cases h
  rfl

theorem execMvl_next {n : Count} {s t : State} (h : execMvl n s = .next t) :
    t = (s.setPtr (wauPtrSub s.cfg.tapeLen s.ptr (countOf n))).advance := by
  cases h
  rfl

theorem execInc_next {n : Count} {s t : State} (h : execInc n s = .next t) :
    s.ptr < s.cfg.tapeLen ∧ t = (s.memWrite (wauCellAdd s.cfg.width s.cell (countOf n))).advance := by
  obtain ⟨hp, h⟩ := State.onCell_next h
  cases h
  exact ⟨hp, rfl⟩

theorem execDec_next {n : Count} {s t : State} (h : execDec n s = .next t) :
    s.ptr < s.cfg.tapeLen ∧ t = (s.memWrite (wauCellSub s.cfg.width s.cell (countOf n))).advance := by
  obtain ⟨hp, h⟩ := State.onCell_next h
  cases h
  exact ⟨hp, rfl⟩

/-- `INC` completes wherever the pointer is in range. -/
theorem execInc_of_lt {s : State} (h : s.ptr < s.cfg.tapeLen) (n : Count) :
    execInc n s = .next (s.memWrite (wauCellAdd s.cfg.width s.cell (countOf n))).advance :=
  State.onCell_of_lt h _

/-- `DEC` completes wherever the pointer is in range. -/
theorem execDec_of_lt {s : State} (h : s.ptr < s.cfg.tapeLen) (n : Count) :
    execDec n s = .next (s.memWrite (wauCellSub s.cfg.width s.cell (countOf n))).advance :=
  State.onCell_of_lt h _

/-- `OUT`, by the host's answer: none yet, written, failed. -/
theorem execOut_next {s t : State} (h : execOut s = .next t) :
    s.ptr < s.cfg.tapeLen ∧
    ((s.outAnswers = [] ∧ t = s) ∨
     (∃ as, s.outAnswers = .ok :: as ∧
       t = { s with outAnswers := as, outStream := s.outStream ++ [wauTrunc8 s.cell], pc := s.pc + 1 }) ∨
     (∃ as, s.outAnswers = .error :: as ∧ t = { s with outAnswers := as, status := .fault .outputError s.pc })) := by
  obtain ⟨hp, h⟩ := State.onCell_next h
  refine ⟨hp, ?_⟩
  rcases s.outWrite_cases (wauTrunc8 s.cell) with ⟨ha, ho⟩ | ⟨as, ha, ho⟩ | ⟨as, ha, ho⟩
  · rw [ho] at h; cases h; exact .inl ⟨ha, rfl⟩
  · rw [ho] at h; cases h; exact .inr (.inl ⟨as, ha, rfl⟩)
  · rw [ho] at h; cases h; exact .inr (.inr ⟨as, ha, rfl⟩)

/-- `IN`, by the host's answer: none yet, a byte, failed. -/
theorem execInp_next {s t : State} (h : execInp s = .next t) :
    s.ptr < s.cfg.tapeLen ∧
    ((s.inAnswers = [] ∧ t = s) ∨
     (∃ b as, s.inAnswers = .byte b :: as ∧
       t = (({ s with inAnswers := as } : State).memWrite (wauZext8 b)).advance) ∨
     (∃ a as, s.inAnswers = a :: as ∧ (a = .error ∨ a = .endOfStream) ∧
       t = (({ s with inAnswers := as } : State).failedInputCell).raise .inputError)) := by
  obtain ⟨hp, h⟩ := State.onCell_next h
  refine ⟨hp, ?_⟩
  rcases s.inRead_cases with ⟨ha, ho⟩ | ⟨b, as, ha, ho⟩ | ⟨a, as, ha, hx, ho⟩
  · rw [ho] at h; cases h; exact .inl ⟨ha, rfl⟩
  · rw [ho] at h; cases h; exact .inr (.inl ⟨b, as, ha, rfl⟩)
  · rw [ho] at h; cases h; exact .inr (.inr ⟨a, as, ha, hx, rfl⟩)

theorem execLopen_next {s t : State} (h : execLopen s = .next t) :
    s.ptr < s.cfg.tapeLen ∧
    ((s.cell = 0 ∧ ∃ j, s.jumpEntry = some j ∧ t = s.jump (j + 1)) ∨ (s.cell ≠ 0 ∧ t = s.advance)) := by
  obtain ⟨hp, h⟩ := State.onCell_next h
  refine ⟨hp, ?_⟩
  simp only [wauIsZero_iff] at h
  split at h
  · rename_i hz
    split at h
    · rename_i j hj; cases h; exact .inl ⟨hz, j, hj, rfl⟩
    · cases h
  · rename_i hz; cases h; exact .inr ⟨hz, rfl⟩

theorem execLclose_next {s t : State} (h : execLclose s = .next t) :
    s.ptr < s.cfg.tapeLen ∧
    ((s.cell = 0 ∧ t = s.advance) ∨ (s.cell ≠ 0 ∧ ∃ j, s.jumpEntry = some j ∧ t = s.jump j)) := by
  obtain ⟨hp, h⟩ := State.onCell_next h
  refine ⟨hp, ?_⟩
  simp only [wauIsZero_iff] at h
  split at h
  · rename_i hz; cases h; exact .inl ⟨hz, rfl⟩
  · rename_i hz
    split at h
    · rename_i j hj; cases h; exact .inr ⟨hz, j, hj, rfl⟩
    · cases h

/-- The state an instruction never touches. -/
structure SameFrame (s t : State) : Prop where
  cfg : t.cfg = s.cfg
  prog : t.prog = s.prog
  jt : t.jt = s.jt
  phase : t.phase = s.phase
  cmd : t.cmd = s.cmd

/-- No instruction touches the configuration, the program, the jump table, the phase or the host's command port. -/
theorem exec_frame {i : Instr} {s t : State} (h : exec i s = .next t) : SameFrame s t := by
  cases i with
  | out =>
    obtain ⟨_, ⟨_, rfl⟩ | ⟨_, _, rfl⟩ | ⟨_, _, rfl⟩⟩ := execOut_next h <;> exact ⟨rfl, rfl, rfl, rfl, rfl⟩
  | inp =>
    obtain ⟨_, ⟨_, rfl⟩ | ⟨_, _, _, rfl⟩ | ⟨_, _, _, _, rfl⟩⟩ := execInp_next h <;> constructor <;> simp
  | lopen => obtain ⟨_, ⟨_, _, _, rfl⟩ | ⟨_, rfl⟩⟩ := execLopen_next h <;> exact ⟨rfl, rfl, rfl, rfl, rfl⟩
  | lclose => obtain ⟨_, ⟨_, rfl⟩ | ⟨_, _, _, rfl⟩⟩ := execLclose_next h <;> exact ⟨rfl, rfl, rfl, rfl, rfl⟩
  | mvr n => rw [execMvr_next h]; exact ⟨rfl, rfl, rfl, rfl, rfl⟩
  | mvl n => rw [execMvl_next h]; exact ⟨rfl, rfl, rfl, rfl, rfl⟩
  | inc n => rw [(execInc_next h).2]; exact ⟨rfl, rfl, rfl, rfl, rfl⟩
  | dec n => rw [(execDec_next h).2]; exact ⟨rfl, rfl, rfl, rfl, rfl⟩

/-- Every instruction keeps the tape in canonical form and the pointer in `[0, L)`. -/
theorem exec_keeps_tape {i : Instr} {s t : State} (h : exec i s = .next t) (hL : 1 ≤ s.cfg.tapeLen)
    (hp : s.ptr < s.cfg.tapeLen) (hm : Memory.wf s.cfg.width s.cfg.tapeLen s.tape) :
    Memory.wf s.cfg.width s.cfg.tapeLen t.tape ∧ t.ptr < s.cfg.tapeLen := by
  cases i with
  | out =>
    obtain ⟨_, ⟨_, rfl⟩ | ⟨_, _, rfl⟩ | ⟨_, _, rfl⟩⟩ := execOut_next h <;> exact ⟨hm, hp⟩
  | inp =>
    obtain ⟨_, ⟨_, rfl⟩ | ⟨_, as, _, rfl⟩ | ⟨_, as, _, _, rfl⟩⟩ := execInp_next h
    · exact ⟨hm, hp⟩
    · exact ⟨State.wf_memWrite (s := { s with inAnswers := as }) hm hp _, hp⟩
    · exact ⟨State.wf_failedInputCell (s := { s with inAnswers := as }) hm hp, by simpa using hp⟩
  | lopen => obtain ⟨_, ⟨_, _, _, rfl⟩ | ⟨_, rfl⟩⟩ := execLopen_next h <;> exact ⟨hm, hp⟩
  | lclose => obtain ⟨_, ⟨_, rfl⟩ | ⟨_, _, _, rfl⟩⟩ := execLclose_next h <;> exact ⟨hm, hp⟩
  | mvr n => rw [execMvr_next h]; exact ⟨hm, wauPtrAdd_lt hL _ _⟩
  | mvl n => rw [execMvl_next h]; exact ⟨hm, wauPtrSub_lt hL _ _⟩
  | inc n => rw [(execInc_next h).2]; exact ⟨State.wf_memWrite hm hp _, hp⟩
  | dec n => rw [(execDec_next h).2]; exact ⟨State.wf_memWrite hm hp _, hp⟩

end Sys2Proof.Machine
end

