-- ==== Sys2Proof/Laws/Jpu.lean ====
section
/-! SUPPORT. The pairing pass: each scan index keeps what is built so far (R95), and the end of the pass gives a built
table (R97). -/

namespace Sys2Proof.Machine

variable {m : CodeMap} {prog : List Byte} {jt : Table} {stack : List Nat} {n : Nat}

/-- Nothing is built before the pass. -/
theorem PairedUpTo.start (m : CodeMap) (prog : List Byte) : PairedUpTo m prog [] [] 0 where
  bound := Nat.zero_le _
  complete i := by simp [Table.lookup]
  symmetric i j h := by simp [Table.lookup] at h
  opens i j h := by simp [Table.lookup] at h
  closes i j h := by simp [Table.lookup] at h
  nested a b c d h := by simp [Table.lookup] at h
  stackOpen i h := by simp at h
  stackOrder := List.Pairwise.nil
  stackOutside k h := by simp at h

/-- An index inside the program has an instruction, and only such an index. -/
theorem instrAt_isSome_iff (m : CodeMap) (prog : List Byte) (i : Nat) :
    (∃ x, instrAt m prog i = some x) ↔ i < prog.length := by
  unfold instrAt
  rcases lt_or_ge i prog.length with h | h
  · simp [h]
  · simp [Nat.not_lt.mpr h]

theorem instrAt_none_iff (m : CodeMap) (prog : List Byte) (i : Nat) : instrAt m prog i = none ↔ prog.length ≤ i := by
  simp [instrAt]

theorem OpenAt.lt {i : Nat} (h : OpenAt m prog i) : i < prog.length := (instrAt_isSome_iff m prog i).mp ⟨_, h⟩

theorem CloseAt.lt {i : Nat} (h : CloseAt m prog i) : i < prog.length := (instrAt_isSome_iff m prog i).mp ⟨_, h⟩

theorem depth_zero (m : CodeMap) (prog : List Byte) : depth m prog 0 = 0 := rfl

/-- The depth after one more instruction. -/
theorem depth_succ {i : Instr} (h : instrAt m prog n = some i) :
    depth m prog (n + 1) = depth m prog n + bracketWeight i := by
  unfold instrAt at h
  obtain ⟨b, hb, rfl⟩ := Option.map_eq_some_iff.mp h
  unfold depth
  rw [List.take_add_one, hb]
  simp

theorem OpenAt.not_close {i : Nat} (h : OpenAt m prog i) : ¬CloseAt m prog i := fun h' => by
  unfold OpenAt at h
  unfold CloseAt at h'
  rw [h] at h'
  cases h'

/-- Every entry built so far is below the scan index. -/
theorem PairedUpTo.lt (h : PairedUpTo m prog jt stack n) {i j : Nat} (hij : Table.lookup jt i = some j) :
    i < n ∧ j < n :=
  ⟨((h.complete i).mp ⟨j, hij⟩).1, ((h.complete j).mp ⟨i, h.symmetric i j hij⟩).1⟩

/-- R91: a loop-open is pushed. -/
theorem PairedUpTo.push (h : PairedUpTo m prog jt stack n) (ho : OpenAt m prog n) :
    PairedUpTo m prog jt (n :: stack) (n + 1) where
  bound := ho.lt
  complete i := by
    rw [h.complete i]
    constructor
    · rintro ⟨hi, hc | ⟨hio, hs⟩⟩
      · exact ⟨by omega, .inl hc⟩
      · refine ⟨by omega, .inr ⟨hio, ?_⟩⟩
        rw [List.mem_cons, not_or]
        exact ⟨by omega, hs⟩
    · rintro ⟨hi, hc | ⟨hio, hs⟩⟩
      · have : i ≠ n := fun e => ho.not_close (e ▸ hc)
        exact ⟨by omega, .inl hc⟩
      · rw [List.mem_cons, not_or] at hs
        exact ⟨by omega, .inr ⟨hio, hs.2⟩⟩
  symmetric := h.symmetric
  opens := h.opens
  closes := h.closes
  nested := h.nested
  stackOpen i hi := by
    rcases List.mem_cons.mp hi with rfl | hi
    · exact ⟨Nat.lt_succ_self _, ho⟩
    · exact ⟨by have := (h.stackOpen i hi).1; omega, (h.stackOpen i hi).2⟩
  stackOrder := List.pairwise_cons.mpr ⟨fun i hi => (h.stackOpen i hi).1, h.stackOrder⟩
  stackOutside k hk a b hab hlt := by
    rcases List.mem_cons.mp hk with rfl | hk
    · have := (h.lt hab).2
      omega
    · exact h.stackOutside k hk a b hab hlt

/-- R93: any other byte changes nothing. -/
theorem PairedUpTo.skip (h : PairedUpTo m prog jt stack n) (hn : n < prog.length) (ho : ¬OpenAt m prog n)
    (hc : ¬CloseAt m prog n) : PairedUpTo m prog jt stack (n + 1) where
  bound := hn
  complete i := by
    rw [h.complete i]
    constructor
    · rintro ⟨hi, hb⟩
      exact ⟨by omega, hb⟩
    · rintro ⟨hi, hb⟩
      have : i ≠ n := by
        rintro rfl
        exact hb.elim hc fun hb => ho hb.1
      exact ⟨by omega, hb⟩
  symmetric := h.symmetric
  opens := h.opens
  closes := h.closes
  nested := h.nested
  stackOpen i hi := ⟨by have := (h.stackOpen i hi).1; omega, (h.stackOpen i hi).2⟩
  stackOrder := h.stackOrder
  stackOutside := h.stackOutside

/-- The table after the pair `(o, n)` is recorded. -/
theorem lookup_pair (jt : Table) (o n i : Nat) :
    (Table.set (Table.set jt o n) n o).lookup i =
      if i = n then some o else if i = o then some n else jt.lookup i := by
  rw [Table.lookup_set, Table.lookup_set]

/-- R92: a loop-close takes the loop-open on top of the stack, and the pair is recorded both ways. -/
theorem PairedUpTo.pair {o : Nat} (h : PairedUpTo m prog jt (o :: stack) n) (hc : CloseAt m prog n) :
    PairedUpTo m prog (Table.set (Table.set jt o n) n o) stack (n + 1) := by
  obtain ⟨hon, hoo⟩ := h.stackOpen o List.mem_cons_self
  obtain ⟨hord, hst⟩ := List.pairwise_cons.mp h.stackOrder
  have hos : o ∉ stack := fun hm => lt_irrefl _ (hord o hm)
  have hno : ¬∃ j, Table.lookup jt o = some j := fun hx => by
    rcases ((h.complete o).mp hx).2 with hcl | hop
    · exact hoo.not_close hcl
    · exact hop.2 List.mem_cons_self
  have hlt : ∀ {i j}, Table.lookup jt i = some j → i < n ∧ j < n ∧ i ≠ o ∧ j ≠ o := fun {i j} hij =>
    ⟨(h.lt hij).1, (h.lt hij).2, fun e => hno ⟨j, e ▸ hij⟩, fun e => hno ⟨i, e ▸ h.symmetric i j hij⟩⟩
  -- an entry of the new table is the new pair, one way or the other, or an old entry
  have key : ∀ {i j}, (Table.set (Table.set jt o n) n o).lookup i = some j →
      (i = n ∧ j = o) ∨ (i = o ∧ j = n) ∨ Table.lookup jt i = some j := by
    intro i j hij
    rw [lookup_pair] at hij
    split at hij
    · cases hij; exact .inl ⟨‹_›, rfl⟩
    · split at hij
      · cases hij; exact .inr (.inl ⟨‹_›, rfl⟩)
      · exact .inr (.inr hij)
  constructor
  case bound => exact hc.lt
  case complete =>
    intro i
    rw [lookup_pair]
    by_cases hin : i = n
    · subst hin
      simp only [if_true, Option.some.injEq, exists_eq', true_iff]
      exact ⟨Nat.lt_succ_self _, .inl hc⟩
    · by_cases hio : i = o
      · subst hio
        simp only [if_neg hin, if_true, Option.some.injEq, exists_eq', true_iff]
        exact ⟨by omega, .inr ⟨hoo, hos⟩⟩
      · rw [if_neg hin, if_neg hio, h.complete i, List.mem_cons]
        constructor
        · rintro ⟨hi, hb⟩
          exact ⟨by omega, hb.imp id fun hb => ⟨hb.1, fun hm => hb.2 (.inr hm)⟩⟩
        · rintro ⟨hi, hb⟩
          exact ⟨by omega, hb.imp id fun hb => ⟨hb.1, fun hm => hm.elim hio hb.2⟩⟩
  case symmetric =>
    intro i j hij
    rcases key hij with ⟨rfl, rfl⟩ | ⟨rfl, rfl⟩ | hold
    · rw [lookup_pair, if_neg (by omega), if_pos rfl]
    · rw [lookup_pair, if_pos rfl]
    · obtain ⟨_, h2, _, h4⟩ := hlt hold
      rw [lookup_pair, if_neg (by omega), if_neg h4]
      exact h.symmetric i j hold
  case opens =>
    intro i j hij hop
    rcases key hij with ⟨rfl, rfl⟩ | ⟨rfl, rfl⟩ | hold
    · exact absurd hc hop.not_close
    · exact ⟨hon, hc⟩
    · exact h.opens i j hold hop
  case closes =>
    intro i j hij hcl
    rcases key hij with ⟨rfl, rfl⟩ | ⟨rfl, rfl⟩ | hold
    · exact ⟨hon, hoo⟩
    · exact absurd hcl hoo.not_close
    · exact h.closes i j hold hcl
  case nested =>
    intro a b c d hab hcd hab' hcd' hac
    rcases key hab with ⟨rfl, rfl⟩ | ⟨rfl, rfl⟩ | hold
    · omega
    · rcases key hcd with ⟨rfl, rfl⟩ | ⟨rfl, rfl⟩ | hcd
      · omega
      · omega
      · exact .inr (hlt hcd).2.1
    · rcases key hcd with ⟨rfl, rfl⟩ | ⟨rfl, rfl⟩ | hcd
      · omega
      · have hout := h.stackOutside c List.mem_cons_self a b hold hab'
        have := (hlt hold).2.2.2
        exact .inl (by omega)
      · exact h.nested a b c d hold hcd hab' hcd' hac
  case stackOpen =>
    intro i hi
    have := h.stackOpen i (List.mem_cons_of_mem _ hi)
    exact ⟨by omega, this.2⟩
  case stackOrder => exact hst
  case stackOutside =>
    intro k hk a b hab hab'
    rcases key hab with ⟨rfl, rfl⟩ | ⟨rfl, rfl⟩ | hab
    · omega
    · have := hord k hk
      omega
    · exact h.stackOutside k (List.mem_cons_of_mem _ hk) a b hab hab'

/-- R94: with the whole program scanned and nothing open, the table is built. -/
theorem PairedUpTo.finish (h : PairedUpTo m prog jt [] prog.length) : Paired m prog jt where
  complete i := by
    rw [h.complete i]
    constructor
    · rintro ⟨_, hc | ho⟩
      · exact .inr hc
      · exact .inl ho.1
    · rintro (ho | hc)
      · exact ⟨ho.lt, .inr ⟨ho, List.not_mem_nil⟩⟩
      · exact ⟨hc.lt, .inl hc⟩
  symmetric := h.symmetric
  opens := h.opens
  closes := h.closes
  nested := h.nested
  inRange _ _ hij := (h.lt hij).2

end Sys2Proof.Machine
end

