-- ==== Sys2Proof/Laws/PerInstr.lean ====
section
/-! SUPPORT. Statements made for every constructor of `Instr`. Family `OpSplit`: an instruction is the one of its kind and
its count, the two outputs of the classifier (R61). -/

namespace Sys2Proof.Laws.OpSplit

def Statement (i : Instr) : Prop := Instr.ofOp i.kind i.count = i

theorem out : Statement .out := rfl

theorem inp : Statement .inp := rfl

theorem lopen : Statement .lopen := rfl

theorem lclose : Statement .lclose := rfl

theorem mvr (n : Count) : Statement (.mvr n) := rfl

theorem mvl (n : Count) : Statement (.mvl n) := rfl

theorem inc (n : Count) : Statement (.inc n) := rfl

theorem dec (n : Count) : Statement (.dec n) := rfl

end Sys2Proof.Laws.OpSplit
end

