-- ==== Sys2Proof/Laws/Rle.lean ====
section
/-! SUPPORT. The encoder: what `Emit`, a flush and a head event do, and that each keeps the invariants of R83. -/

namespace Sys2Proof.Machine

/-- `Emit` writes one byte at `wr`, or the buffer was full (R77). -/
theorem RleState.emit_cases (r : RleState) (b : Byte) :
    (r.wr = r.cap ∧ r.emit b = none) ∨
    (r.wr ≠ r.cap ∧ r.emit b = some { r with buf := r.buf ++ [b], wr := r.wr + 1 }) := by
  unfold RleState.emit
  split
  · exact .inl ⟨‹_›, rfl⟩
  · exact .inr ⟨‹_›, rfl⟩

theorem RleInv.emit {r r1 : RleState} {b : Byte} (h : RleInv r) (he : r.emit b = some r1) : RleInv r1 := by
  rcases r.emit_cases b with ⟨_, h0⟩ | ⟨hne, h1⟩
  · rw [h0] at he; cases he
  · rw [h1] at he
    cases he
    have := h.written
    have := h.fits
    exact ⟨h.pendNone, h.pendSome, by simp; omega, by show r.wr + 1 ≤ r.cap; omega, h.capacity⟩

/-- A flush that overflows finds the buffer full; one that succeeds keeps the pending run and the source. -/
theorem RleState.flush_cases (m : CodeMap) (r : RleState) :
    (r.pendKind = none ∧ r.flush m = some r) ∨
    (∃ k, r.pendKind = some k ∧ r.wr = r.cap ∧ r.flush m = none) ∨
    (∃ k, r.pendKind = some k ∧ r.wr ≠ r.cap ∧
      r.flush m = some { r with
        buf := r.buf ++ [encodeFields m (.rep k) (BitVec.ofNat 6 r.pendCnt)], wr := r.wr + 1 }) := by
  rcases hk : r.pendKind with _ | k
  · exact .inl ⟨rfl, by simp [RleState.flush, hk]⟩
  · have hf : r.flush m = r.emit (encodeFields m (.rep k) (BitVec.ofNat 6 r.pendCnt)) := by
      simp [RleState.flush, hk]
    rcases r.emit_cases (encodeFields m (.rep k) (BitVec.ofNat 6 r.pendCnt)) with ⟨h0, h1⟩ | ⟨h0, h1⟩
    · exact .inr (.inl ⟨k, rfl, h0, hf.trans h1⟩)
    · refine .inr (.inr ⟨k, rfl, h0, ?_⟩)
      rw [hf, h1, ← hk]

theorem RleInv.flush {m : CodeMap} {r r1 : RleState} (h : RleInv r) (hf : r.flush m = some r1) : RleInv r1 := by
  unfold RleState.flush at hf
  split at hf
  · cases hf; exact h
  · exact h.emit hf

theorem RleInv.clearPend {r : RleState} (h : RleInv r) : RleInv r.clearPend :=
  ⟨fun _ => rfl, fun hn => absurd rfl hn, h.written, h.fits, h.capacity⟩

theorem RleInv.startRun {r : RleState} (h : RleInv r) (k : RepKind) : RleInv (r.startRun k) :=
  ⟨fun hn => (nomatch hn), fun _ => ⟨le_refl 1, by show 1 ≤ 63; omega⟩, h.written, h.fits, h.capacity⟩

theorem RleInv.consume {r : RleState} (h : RleInv r) : RleInv r.consume :=
  ⟨h.pendNone, h.pendSome, h.written, h.fits, h.capacity⟩

theorem RleInv.invocation {r : RleState} (h : RleInv r) {cap : Nat} (hc : 1 ≤ cap) (later : List Nat) :
    RleInv (r.invocation cap later) :=
  ⟨h.pendNone, h.pendSome, rfl, Nat.zero_le _, hc⟩

theorem RleInv.start (src : List Token) {cap : Nat} (hc : 1 ≤ cap) (later : List Nat) :
    RleInv (RleState.start src cap later) :=
  ⟨fun _ => rfl, fun hn => absurd rfl hn, rfl, Nat.zero_le _, hc⟩

theorem RleInv.onEnd {m : CodeMap} {r : RleState} (h : RleInv r) : RleInv (r.onEnd m).2 := by
  unfold RleState.onEnd
  split
  · exact h
  · exact (h.flush ‹_›).clearPend

theorem RleInv.onRep {m : CodeMap} {r : RleState} (h : RleInv r) (k : RepKind) : RleInv (r.onRep m k).2 := by
  unfold RleState.onRep
  split
  · rename_i hk
    refine RleInv.consume ⟨fun hn => ?_, fun hn => ?_, h.written, h.fits, h.capacity⟩
    · rw [show r.pendKind = none from hn] at hk; cases hk.1
    · show 1 ≤ r.pendCnt + 1 ∧ r.pendCnt + 1 ≤ 63; omega
  · split
    · exact h
    · exact ((h.flush ‹_›).startRun k).consume

theorem RleInv.onNonRep {m : CodeMap} {r : RleState} (h : RleInv r) (k : NonRepKind) :
    RleInv (r.onNonRep m k).2 := by
  unfold RleState.onNonRep
  split
  · exact h
  · split
    · exact (h.flush ‹_›).clearPend
    · exact ((h.flush ‹_›).clearPend.emit ‹_›).consume

/-- A flush changes neither the capacities nor the source. -/
theorem RleState.flush_frame {m : CodeMap} {r r1 : RleState} (h : r.flush m = some r1) :
    r1.src = r.src ∧ r1.cap = r.cap ∧ r1.laterCaps = r.laterCaps := by
  rcases r.flush_cases m with ⟨_, h1⟩ | ⟨_, _, _, h1⟩ | ⟨_, _, _, h1⟩ <;> rw [h1] at h <;> cases h <;>
    exact ⟨rfl, rfl, rfl⟩

end Sys2Proof.Machine
end

