-- ==== Sys2Proof/Laws/Step.lean ====
section
/-! SUPPORT. The step, phase by phase, and that the host's moves keep the invariant. -/

namespace Sys2Proof.Machine

theorem step_of_cmd {s : State} {op : HostOp} (h : s.cmd = some op) : step s = takeCommand op s := by
  simp [step, h]

theorem step_of_loaded {s : State} (hc : s.cmd = none) (hp : s.phase = .loaded) : step s = runStep s := by
  simp [step, hc, hp]

theorem step_of_compiling {s : State} {r : RleState} (hc : s.cmd = none) (hp : s.phase = .compiling r) :
    step s = rleStep r s := by
  simp [step, hc, hp]

theorem step_of_pairing {s : State} {j : JpuState} (hc : s.cmd = none) (hp : s.phase = .pairing j) :
    step s = jpuStep j s := by
  simp [step, hc, hp]

theorem step_of_constructed {s : State} (hc : s.cmd = none) (hp : s.phase = .constructed) : step s = .next s := by
  simp [step, hc, hp]

/-- What a step of a ready engine can do: the end of the run, or the instruction at `pc`. -/
theorem Ready.step_cases {s t : State} (h : Ready s) (hs : step s = .next t) :
    (s.pc = s.prog.length ∧ t = { s with status := .done }) ∨
    (∃ i, instrAt s.cfg.codeMap s.prog s.pc = some i ∧ exec i s = .next t) := by
  rw [step_of_loaded h.cmd h.phase, runStep, if_pos h.status] at hs
  split at hs
  · cases hs; exact .inl ⟨‹_›, rfl⟩
  · split at hs
    · rename_i b hb
      refine .inr ⟨_, ?_, hs⟩
      rw [State.fetch] at hb
      simp [instrAt, hb]
    · cases hs

/-- The pass of R95, by the instruction at the scan index. -/
theorem jpuStep_end {j : JpuState} {s : State} (h : instrAt s.cfg.codeMap s.prog j.scan = none) :
    jpuStep j s = pairEnd j s := by
  simp [jpuStep, h]

theorem jpuStep_open {j : JpuState} {s : State} (h : OpenAt s.cfg.codeMap s.prog j.scan) :
    jpuStep j s = pairOpen j s := by
  rw [OpenAt] at h
  simp [jpuStep, h]

theorem jpuStep_close {j : JpuState} {s : State} (h : CloseAt s.cfg.codeMap s.prog j.scan) :
    jpuStep j s = pairClose j s := by
  rw [CloseAt] at h
  simp [jpuStep, h]

theorem jpuStep_other {j : JpuState} {s : State} (hl : j.scan < s.prog.length)
    (ho : ¬OpenAt s.cfg.codeMap s.prog j.scan) (hc : ¬CloseAt s.cfg.codeMap s.prog j.scan) :
    jpuStep j s = pairOther j s := by
  obtain ⟨i, hi⟩ := (instrAt_isSome_iff s.cfg.codeMap s.prog j.scan).mpr hl
  rw [OpenAt, hi] at ho
  rw [CloseAt, hi] at hc
  cases i <;> simp_all [jpuStep]

/-! The moves of the host (R175) keep the invariant: they touch no field it speaks of. -/

theorem State.Inv.issue {s : State} (h : s.Inv) (op : HostOp) : (s.issue op).Inv :=
  ⟨h.cfg, h.ptr, h.tape, h.jt, h.phase⟩

theorem State.Inv.answerIn {s : State} (h : s.Inv) (a : InAnswer) : (s.answerIn a).Inv :=
  ⟨h.cfg, h.ptr, h.tape, h.jt, h.phase⟩

theorem State.Inv.answerOut {s : State} (h : s.Inv) (a : OutAnswer) : (s.answerOut a).Inv :=
  ⟨h.cfg, h.ptr, h.tape, h.jt, h.phase⟩

end Sys2Proof.Machine
end

