-- ==== Sys2Proof/Tests/Slice0.lean ====
section
/-! SUPPORT. Tests, with their expected results from spec/95_test_vectors.md or worked out from the rule each names; and, for
every statement of Certificates/Slice0/Obligations.lean that has hypotheses, a witness that meets them. -/

open Sys2Proof Sys2Proof.Machine

namespace Sys2Proof.Tests

/-! ### Helpers -/

/-- The next state, if the outcome is one. -/
def nextOf : Result → Option State
  | .next s => some s
  | .fault _ => none
  | .refused _ => none

/-- The fault, if the outcome is one. -/
def faultOf : Result → Option Fault
  | .next _ => none
  | .fault r => some r
  | .refused _ => none

/-- The refusal, if the outcome is one. -/
def refusalOf : Result → Option Refusal
  | .next _ => none
  | .fault _ => none
  | .refused r => some r

def cfgOf (w : Width) (L : Nat) : EngineConfig where
  width := w
  tapeLen := L
  codeMap := CodeMap.default
  inputFailCell := .unchanged
  pMax := 100

/-- A fresh engine. -/
def fresh (w : Width) (L : Nat) : State := State.initial (cfgOf w L)

/-- A run in progress. -/
def running (w : Width) (L : Nat) (prog : List Byte) (jt : Table) (pc : Nat) (tape : Memory) (ptr : Nat) : State :=
  { fresh w L with prog := prog, jt := jt, pc := pc, tape := tape, ptr := ptr, phase := .loaded, status := .running }

/-- A run of the one-byte program `b`, at its start. -/
def one (w : Width) (L : Nat) (b : Byte) (tape : Memory) (ptr : Nat) : State := running w L [b] [] 0 tape ptr

/-- A run of `[]` on a tape of one 8-bit cell. -/
def loop (pc : Nat) (tape : Memory) : State := running .w8 1 [0x80, 0xC0] [(0, 1), (1, 0)] pc tape 0

/-- The kinds in the opposite order: another legal code map (R47). -/
def otherMap : CodeMap where
  rep := ⟨.dec, .inc, .mvl, .mvr⟩
  nonrep := ⟨.lclose, .lopen, .inp, .out⟩

/-- `ptr` and `pc` after a step. -/
def ptrPc (s : State) : Option (Nat × Nat) := (nextOf (step s)).map fun t => (t.ptr, t.pc)

/-- The tape and `pc` after a step. -/
def tapePc (s : State) : Option (Memory × Nat) := (nextOf (step s)).map fun t => (t.tape, t.pc)

/-! ### Well-formedness: each check refuses an ill-formed term -/

theorem test_wf_mvr_count : (Instr.mvr 0).wf = false ∧ (Instr.mvr 1).wf = true ∧ (Instr.mvr 63).wf = true := by decide
theorem test_wf_mvl_count : (Instr.mvl 0).wf = false ∧ (Instr.mvl 63).wf = true := by decide
theorem test_wf_inc_count : (Instr.inc 0).wf = false ∧ (Instr.inc 63).wf = true := by decide
theorem test_wf_dec_count : (Instr.dec 0).wf = false ∧ (Instr.dec 63).wf = true := by decide
theorem test_wf_rep_column : ¬CodeMap.wf { CodeMap.default with rep := ⟨.mvr, .mvl, .inc, .mvr⟩ } := by decide
theorem test_wf_nonrep_column : ¬CodeMap.wf { CodeMap.default with nonrep := ⟨.out, .out, .lopen, .lclose⟩ } := by decide
theorem test_wf_other_map : otherMap.wf := by decide
theorem test_wf_tape_length : ¬EngineConfig.wf (cfgOf .w8 0) ∧ EngineConfig.wf (cfgOf .w8 1) := by decide

/-- A tape: out of order, a zero listed, a value too wide, an index past the end, and one in form. -/
theorem test_wf_tape :
    ¬Memory.wf .w8 5 [(2, 1), (1, 1)] ∧ ¬Memory.wf .w8 5 [(1, 0)] ∧ ¬Memory.wf .w8 5 [(1, 256)] ∧
    ¬Memory.wf .w8 5 [(5, 1)] ∧ Memory.wf .w8 5 [(0, 255), (4, 1)] := by decide

theorem test_reset_tape_wf : Memory.wf State.reset.cfg.width State.reset.cfg.tapeLen State.reset.tape := by decide

/-- The reset values the spec gives (R5, R6, R23, R47, R130, R185). -/
theorem test_reset :
    State.reset.cfg.width = .w8 ∧ State.reset.cfg.tapeLen = 3000 ∧ State.reset.cfg.inputFailCell = .unchanged ∧
    State.reset.tape = [] ∧ State.reset.ptr = 0 ∧ State.reset.pc = 0 ∧ State.reset.status = .idle := by decide

/-! ### Decoding: words written out from the encodings of R115 to R138, and the table of 95_test_vectors.md 2.1 -/

theorem test_decode_out : decodeTableWord 8 0b00000000 = some .out := by decide
theorem test_decode_in : decodeTableWord 8 0b01000000 = some .inp := by decide
theorem test_decode_lopen : decodeTableWord 8 0b10000000 = some .lopen := by decide
theorem test_decode_lclose : decodeTableWord 8 0b11000000 = some .lclose := by decide
theorem test_decode_mvr : decodeTableWord 8 0b00000001 = some (.mvr 1) ∧ decodeTableWord 8 0b00111111 = some (.mvr 63) := by
  decide
theorem test_decode_mvl : decodeTableWord 8 0b01000001 = some (.mvl 1) ∧ decodeTableWord 8 0b01111111 = some (.mvl 63) := by
  decide
theorem test_decode_inc : decodeTableWord 8 0b10000001 = some (.inc 1) ∧ decodeTableWord 8 0b10111111 = some (.inc 63) := by
  decide
theorem test_decode_dec : decodeTableWord 8 0b11000001 = some (.dec 1) ∧ decodeTableWord 8 0b11111111 = some (.dec 63) := by
  decide

/-- R45: one byte is one instruction, and the empty sequence is the one rejection. -/
theorem test_decodeBytes :
    (match decodeBytes CodeMap.default [] with | .error .noByte => true | .ok _ => false) = true ∧
    (match decodeBytes CodeMap.default [0x45, 0x00] with | .error .noByte => false | .ok p => p == (.mvl 5, [0x00])) = true :=
  by decide

/-- Under the opposite code map `0x05` is `DEC 5` and `0x00` is `LCLOSE` (R47). -/
theorem test_decode_other_map : decode otherMap 0x05 = .dec 5 ∧ decode otherMap 0x00 = .lclose := by decide

/-- The `encode` calls of 95_test_vectors.md 2.1. -/
theorem test_encode :
    encode CodeMap.default (.mvl 5) = 0x45 ∧ encodeFields CodeMap.default (.nonrep .lclose) 17 = 0xC0 ∧
    encode CodeMap.default (.dec 63) = 0xFF ∧ encode CodeMap.default (.inc 7) = 0x87 ∧
    encodeFields CodeMap.default (.nonrep .out) 42 = 0x00 := by decide

/-- The refused calls of 95_test_vectors.md 2.1. -/
theorem test_encode_refused :
    (match encodeCall CodeMap.default (.rep .mvr) 0 with | .error r => r == .countZero | .ok _ => false) = true ∧
    (match encodeCall CodeMap.default (.rep .inc) 64 with | .error r => r == .countAbove63 | .ok _ => false) = true := by
  decide

/-- The tokens of R52, by the bytes `> < + - . , [ ]`. -/
theorem test_token_ascii :
    [Token.gt, .lt, .plus, .minus, .dot, .comma, .lbracket, .rbracket].map (fun t => Char.ofNat t.ascii.toNat) =
      ['>', '<', '+', '-', '.', ',', '[', ']'] := by decide

/-- The fault codes of R160. -/
theorem test_fault_numbers :
    [FaultCode.invalidCellWidth, .unmatchedLoopOpen, .unmatchedLoopClose, .inputError, .outputError].map FaultCode.number =
      [1, 2, 3, 4, 5] := by decide

/-! ### One step per instruction (95_test_vectors.md 2.4 to 2.7) -/

theorem test_mvr_wraps : ptrPc (one .w8 3000 0x01 [] 2999) = some (0, 1) := by decide
theorem test_mvr_count_above_length :
    ptrPc (one .w8 5 0x3F [] 4) = some (2, 1) ∧ ptrPc (one .w8 1 0x3F [] 0) = some (0, 1) := by decide
theorem test_mvl_wraps : ptrPc (one .w8 5 0x41 [] 0) = some (4, 1) ∧ ptrPc (one .w8 3000 0x7F [] 10) = some (2947, 1) := by
  decide
theorem test_mvl_count_above_length :
    ptrPc (one .w8 5 0x47 [] 0) = some (3, 1) ∧ ptrPc (one .w8 1 0x7F [] 0) = some (0, 1) := by decide

theorem test_inc_wraps :
    tapePc (one .w8 5 0x81 [(2, 0xFF), (3, 9)] 2) = some ([(3, 9)], 1) ∧
    tapePc (one .w64 5 0x81 [(0, 0xFFFFFFFFFFFFFFFF)] 0) = some ([], 1) := by decide
theorem test_inc_width :
    tapePc (one .w8 5 0xBF [(1, 0xF0)] 1) = some ([(1, 0x2F)], 1) ∧
    tapePc (one .w16 5 0x81 [(1, 0x00FF)] 1) = some ([(1, 0x0100)], 1) := by decide
theorem test_dec_wraps :
    tapePc (one .w8 5 0xC1 [(3, 9)] 2) = some ([(2, 0xFF), (3, 9)], 1) ∧
    tapePc (one .w32 5 0xC1 [] 0) = some ([(0, 0xFFFFFFFF)], 1) := by decide
theorem test_dec_count : tapePc (one .w8 5 0xFF [(0, 0x05)] 0) = some ([(0, 0xC6)], 1) := by decide

theorem test_out_truncates :
    (nextOf (step { one .w16 5 0x00 [(0, 0x1241)] 0 with outStream := [7], outAnswers := [.ok, .error] })).map
      (fun t => (t.outStream, t.outAnswers, t.tape, t.pc)) = some ([7, 0x41], [.error], [(0, 0x1241)], 1) := by decide
theorem test_out_error :
    (nextOf (step { one .w8 5 0x00 [(0, 1)] 0 with outAnswers := [.error] })).map
      (fun t => (t.outStream, t.outAnswers, t.status, t.pc)) = some ([], [], .fault .outputError 0, 0) := by decide

theorem test_in_zero_extends :
    (nextOf (step { one .w16 5 0x40 [(0, 0xABCD)] 0 with inAnswers := [.byte 0x41, .error] })).map
      (fun t => (t.tape, t.inAnswers, t.pc)) = some ([(0, 0x0041)], [.error], 1) := by decide
/-- The end of the stream, under both values of `INPUT_FAIL_CELL` (R130). -/
theorem test_in_fails :
    (nextOf (step { one .w8 5 0x40 [(0, 0x7E)] 0 with inAnswers := [.endOfStream] })).map
      (fun t => (t.tape, t.status, t.pc)) = some ([(0, 0x7E)], .fault .inputError 0, 0) ∧
    (nextOf (step { one .w8 5 0x40 [(0, 0x7E)] 0 with
        inAnswers := [.error], cfg := { cfgOf .w8 5 with inputFailCell := .zeroed } })).map
      (fun t => (t.tape, t.status, t.pc)) = some ([], .fault .inputError 0, 0) := by decide

theorem test_lopen_skips : nextOf (step (running .w8 1 [0x80, 0x81, 0xC0] [(0, 2), (2, 0)] 0 [] 0)) =
    some (running .w8 1 [0x80, 0x81, 0xC0] [(0, 2), (2, 0)] 3 [] 0) := by decide
theorem test_lopen_enters : nextOf (step (loop 0 [(0, 1)])) = some (loop 1 [(0, 1)]) := by decide
theorem test_lclose_leaves : nextOf (step (loop 1 [])) = some (loop 2 []) := by decide
/-- The zero test uses all `W` bits (R149). -/
theorem test_lclose_jumps : nextOf (step (running .w16 1 [0x80, 0xC0] [(0, 1), (1, 0)] 1 [(0, 0x0100)] 0)) =
    some (running .w16 1 [0x80, 0xC0] [(0, 1), (1, 0)] 0 [(0, 0x0100)] 0) := by decide

/-! ### The first step after reset runs the word placed for it -/

theorem test_withFetchWord_mvl : ptrPc (State.reset.withFetchWord 8 0x41) = some (2999, 1) := by decide
theorem test_withFetchWord_inc : tapePc (State.reset.withFetchWord 8 0x87) = some ([(0, 7)], 1) := by decide
theorem test_withFetchWord_lopen : ptrPc (State.reset.withFetchWord 8 0x80) = some (0, 2) := by decide
theorem test_withFetchWord_lclose : ptrPc (State.reset.withFetchWord 8 0xC0) = some (0, 2) := by decide

/-! ### Load: the RLE and the JPU (95_test_vectors.md 2.2 and 2.3) -/

/-- `+++.` with a buffer of one byte: the `.` meets a pending run of 3; its own byte overflows, so it is not consumed. -/
theorem test_rle_rewind :
    RleState.event CodeMap.default { RleState.start [.dot] 1 [] with pendKind := some .inc, pendCnt := 3 } =
      (.rewind, { RleState.start [.dot] 1 [] with buf := [0x83], wr := 1 }) := by decide

/-- The 64th `+`: the run of 63 is emitted and a run of 1 begins; at the end of input the flush overflows. -/
theorem test_rle_full_count :
    RleState.event CodeMap.default { RleState.start [.plus] 1 [] with pendKind := some .inc, pendCnt := 63 } =
      (.more, { RleState.start [] 1 [] with buf := [0xBF], wr := 1, pendKind := some .inc, pendCnt := 1 }) ∧
    RleState.event CodeMap.default { RleState.start [] 1 [] with buf := [0xBF], wr := 1, pendKind := some .inc, pendCnt := 1 } =
      (.rewind, { RleState.start [] 1 [] with buf := [0xBF], wr := 1, pendKind := some .inc, pendCnt := 1 }) := by decide

/-- `+>+` is not folded across kinds; 127 `+` are `BF BF 81`; `[[` is two bytes (R54). -/
theorem test_expansion :
    (expandTokens [.plus, .gt, .plus]).map (encode CodeMap.default) = [0x81, 0x01, 0x81] ∧
    (expandRun .plus 127).map (encode CodeMap.default) = [0xBF, 0xBF, 0x81] ∧
    (expandTokens [.lbracket, .lbracket]).map (encode CodeMap.default) = [0x80, 0x80] := by decide

/-- `C0 80`: the close at 0 is rejected, although an open loop follows. -/
theorem test_jpu_close_first :
    faultOf (step { fresh .w8 1 with prog := [0xC0, 0x80], phase := .pairing { stack := [], scan := 0 } }) =
      some (.unmatchedLoopClose 0) := by decide

/-- `80 80`: at the end the top of the stack is reported. -/
theorem test_jpu_open_left :
    faultOf (step { fresh .w8 1 with prog := [0x80, 0x80], phase := .pairing { stack := [1, 0], scan := 2 } }) =
      some (.unmatchedLoopOpen 1) := by decide

/-! ### The host's operations -/

theorem test_construct_width : faultOf (construct 12 0 CodeMap.default .unchanged 9) = some (.invalidCellWidth 12) := by decide
theorem test_reset_operation :
    nextOf (step { one .w8 5 0x83 [(0, 3)] 2 with pc := 1, status := .done, cmd := some .reset }) =
      some { one .w8 5 0x83 [] 0 with pc := 1, status := .idle } := by decide

/-! ### Witnesses: concrete states and operands that meet the hypotheses of each statement -/

theorem ready_running (w : Width) (L : Nat) (prog : List Byte) (jt : Table) (pc : Nat) (tape : Memory) (ptr : Nat) :
    Ready (running w L prog jt pc tape ptr) := ⟨rfl, rfl, rfl⟩

theorem paired_loop : Paired CodeMap.default [0x80, 0xC0] [(0, 1), (1, 0)] :=
  (((PairedUpTo.start CodeMap.default [0x80, 0xC0]).push (by unfold OpenAt; decide)).pair
    (by unfold CloseAt; decide)).finish

theorem inv_loop (pc : Nat) (h : pc ≤ 2) (tape : Memory) (ht : Memory.wf .w8 1 tape) : (loop pc tape).Inv where
  cfg := ⟨Nat.le_refl 1, CodeMap.default_wf⟩
  ptr := Nat.zero_lt_one
  tape := ht
  jt := show Table.wf [(0, 1), (1, 0)] by decide
  phase := ⟨paired_loop, h, show 2 ≤ 100 by decide, trivial⟩

theorem inv_fresh (cmd : Option HostOp) : ({ fresh .w8 1 with cmd := cmd } : State).Inv where
  cfg := ⟨Nat.le_refl 1, CodeMap.default_wf⟩
  ptr := Nat.zero_lt_one
  tape := Memory.wf_nil _ _
  jt := Table.wf_nil
  phase := ⟨⟨rfl, rfl, rfl, rfl⟩, rfl, rfl⟩

theorem rleInv_start (src : List Token) : RleInv (RleState.start src 1 []) :=
  ⟨fun _ => rfl, fun h => absurd rfl h, rfl, Nat.zero_le 1, Nat.le_refl 1⟩

/-- A pass over `prog`, at its start. -/
def pass (prog : List Byte) : State := { fresh .w8 1 with prog := prog, phase := .pairing { stack := [], scan := 0 } }

/-- A load issued to a fresh engine. -/
def loading (src : List Token) (cap : Nat) (pMax : Nat) : State :=
  { fresh .w8 1 with cfg := { cfgOf .w8 1 with pMax := pMax }, cmd := some (.load src cap [2]) }

/-- Both families of R61, at the ends of the payload's range. -/
theorem witness_ClassifySelectsByPayload : (1 : Count) ≠ 0 ∧ (63 : Count) ≠ 0 ∧ (0 : Count) = 0 := by decide

/-- The ends of the eight ranges of R49. -/
theorem witness_OpcodeMapOfEveryByte :
    ((0x01 : Byte) ≤ 0x01 ∧ (0x01 : Byte) ≤ 0x3F) ∧ ((0x01 : Byte) ≤ 0x3F ∧ (0x3F : Byte) ≤ 0x3F) ∧
    ((0x41 : Byte) ≤ 0x41 ∧ (0x41 : Byte) ≤ 0x7F) ∧ ((0x41 : Byte) ≤ 0x7F ∧ (0x7F : Byte) ≤ 0x7F) ∧
    ((0x81 : Byte) ≤ 0x81 ∧ (0x81 : Byte) ≤ 0xBF) ∧ ((0x81 : Byte) ≤ 0xBF ∧ (0xBF : Byte) ≤ 0xBF) ∧
    ((0xC1 : Byte) ≤ 0xC1 ∧ (0xC1 : Byte) ≤ 0xFF) ∧ ((0xC1 : Byte) ≤ 0xFF ∧ (0xFF : Byte) ≤ 0xFF) := by decide

theorem witness_InstructionRoundTrip :
    CodeMap.default.wf ∧ otherMap.wf ∧ (Instr.dec 63).wf = true ∧ (Instr.mvr 1).wf = true ∧ Instr.lclose.wf = true := by
  decide

theorem witness_EncodeInvertsDecode : CodeMap.default.wf ∧ otherMap.wf := by decide

/-- The counts of the four clauses: above the port, 0, and both ends of `[1, 63]`. -/
theorem witness_EncodeRefusesContractViolations : 63 < 64 ∧ (0 : Nat) = 0 ∧ (1 ≤ 1 ∧ 1 ≤ 63) ∧ (1 ≤ 63 ∧ 63 ≤ 63) := by decide

theorem witness_CellResultsAreRemainders :
    (255 < 2 ^ Width.w8.bits ∧ 1 ≤ 63 ∧ 63 ≤ 63) ∧ (0 < 2 ^ Width.w64.bits ∧ 1 ≤ 1 ∧ 1 ≤ 63) := by decide

theorem witness_PointerResultsAreRemainders : (0 < 1 ∧ 1 ≤ 63 ∧ 63 ≤ 63) ∧ (2999 < 3000 ∧ 1 ≤ 1 ∧ 1 ≤ 63) := by decide

theorem witness_WrapArithmeticLaws : 255 < 2 ^ Width.w8.bits ∧ 0 < 2 ^ Width.w8.bits ∧ 0 < 1 ∧ 4 < 5 := by decide

theorem witness_MoveRight : (1 : Count) ≠ 0 ∧ (63 : Count) ≠ 0 := by decide

theorem witness_MoveLeft : (1 : Count) ≠ 0 ∧ (63 : Count) ≠ 0 ∧ 1 ≤ (one .w8 1 0x41 [] 0).cfg.tapeLen := by decide

theorem witness_MovesCompose : 1 ≤ (one .w8 1 0x41 [] 0).cfg.tapeLen := by decide

theorem witness_Increment :
    (63 : Count) ≠ 0 ∧ (one .w8 5 0x81 [(4, 255)] 4).ptr < (one .w8 5 0x81 [(4, 255)] 4).cfg.tapeLen := by decide

theorem witness_Decrement : (63 : Count) ≠ 0 ∧ (one .w8 5 0xC1 [] 4).ptr < (one .w8 5 0xC1 [] 4).cfg.tapeLen := by decide

theorem witness_RunLengthIsRepetition :
    (one .w8 5 0xBF [(4, 255)] 4).cfg.wf ∧ (one .w8 5 0xBF [(4, 255)] 4).ptr < (one .w8 5 0xBF [(4, 255)] 4).cfg.tapeLen ∧
    Memory.wf .w8 5 (one .w8 5 0xBF [(4, 255)] 4).tape ∧ (63 : Count) ≠ 0 := by decide

/-- The three answers at an `OUT`. -/
theorem witness_OutputByAnswer :
    (one .w8 1 0x00 [] 0).ptr < (one .w8 1 0x00 [] 0).cfg.tapeLen ∧
    (∃ as, ({ one .w8 1 0x00 [] 0 with outAnswers := [.ok] } : State).outAnswers = .ok :: as) ∧
    (∃ as, ({ one .w8 1 0x00 [] 0 with outAnswers := [.error] } : State).outAnswers = .error :: as) ∧
    (one .w8 1 0x00 [] 0).outAnswers = [] := ⟨by decide, ⟨[], rfl⟩, ⟨[], rfl⟩, rfl⟩

/-- The four answers at an `IN`, and the two values of `INPUT_FAIL_CELL`. -/
theorem witness_InputByAnswer :
    (one .w8 1 0x40 [] 0).ptr < (one .w8 1 0x40 [] 0).cfg.tapeLen ∧
    (∃ b as, ({ one .w8 1 0x40 [] 0 with inAnswers := [.byte 255] } : State).inAnswers = .byte b :: as) ∧
    (∃ a as, ({ one .w8 1 0x40 [] 0 with inAnswers := [.error] } : State).inAnswers = a :: as ∧ a = .error) ∧
    (∃ a as, ({ one .w8 1 0x40 [] 0 with inAnswers := [.endOfStream] } : State).inAnswers = a :: as ∧ a = .endOfStream) ∧
    (one .w8 1 0x40 [] 0).inAnswers = [] ∧ (one .w8 1 0x40 [] 0).cfg.inputFailCell = .unchanged ∧
    ({ cfgOf .w8 1 with inputFailCell := .zeroed } : EngineConfig).inputFailCell = .zeroed :=
  ⟨by decide, ⟨255, [], rfl⟩, ⟨_, [], rfl, rfl⟩, ⟨_, [], rfl, rfl⟩, rfl, rfl, rfl⟩

theorem witness_HeldRunStaysHeld :
    (Ready (one .w8 1 0x40 [] 0) ∧ (one .w8 1 0x40 [] 0).ptr < (one .w8 1 0x40 [] 0).cfg.tapeLen ∧
      instrAt CodeMap.default (one .w8 1 0x40 [] 0).prog (one .w8 1 0x40 [] 0).pc = some .inp ∧
      (one .w8 1 0x40 [] 0).inAnswers = []) ∧
    (Ready (one .w8 1 0x00 [] 0) ∧ (one .w8 1 0x00 [] 0).ptr < (one .w8 1 0x00 [] 0).cfg.tapeLen ∧
      instrAt CodeMap.default (one .w8 1 0x00 [] 0).prog (one .w8 1 0x00 [] 0).pc = some .out ∧
      (one .w8 1 0x00 [] 0).outAnswers = []) :=
  ⟨⟨ready_running _ _ _ _ _ _ _, by decide, by decide, rfl⟩, ⟨ready_running _ _ _ _ _ _ _, by decide, by decide, rfl⟩⟩

theorem witness_LoopOpen :
    (loop 0 []).ptr < (loop 0 []).cfg.tapeLen ∧ (loop 0 []).tape.read (loop 0 []).ptr = 0 ∧
    Table.lookup (loop 0 []).jt (loop 0 []).pc = some 1 ∧ (loop 0 [(0, 255)]).tape.read (loop 0 []).ptr ≠ 0 ∧
    Paired CodeMap.default (loop 0 []).prog (loop 0 []).jt ∧ OpenAt CodeMap.default (loop 0 []).prog (loop 0 []).pc :=
  ⟨by decide, by decide, by decide, by decide, paired_loop, by unfold OpenAt; decide⟩

theorem witness_LoopClose :
    (loop 1 []).ptr < (loop 1 []).cfg.tapeLen ∧ (loop 1 [(0, 255)]).tape.read (loop 1 []).ptr ≠ 0 ∧
    Table.lookup (loop 1 []).jt (loop 1 []).pc = some 0 ∧ (loop 1 []).tape.read (loop 1 []).ptr = 0 ∧
    Paired CodeMap.default (loop 1 []).prog (loop 1 []).jt ∧ CloseAt CodeMap.default (loop 1 []).prog (loop 1 []).pc :=
  ⟨by decide, by decide, by decide, by decide, paired_loop, by unfold CloseAt; decide⟩

/-- The four clauses: at each bracket, with a zero cell and with another. -/
theorem witness_LoopTestsAtEachPass :
    (∀ pc ∈ [0, 1], ∀ tape ∈ [[], [(0, 255)]], Ready (loop pc tape) ∧ (loop pc tape).Inv ∧
      OpenAt CodeMap.default (loop pc tape).prog 0 ∧ Table.lookup (loop pc tape).jt 0 = some 1) ∧
    (loop 0 []).pc = 0 ∧ (loop 1 []).pc = 1 ∧ (loop 0 []).tape.read 0 = 0 ∧ (loop 0 [(0, 255)]).tape.read 0 ≠ 0 := by
  refine ⟨fun pc hp tape ht => ⟨ready_running _ _ _ _ _ _ _, inv_loop pc ?_ tape ?_, by unfold OpenAt; decide +revert, rfl⟩,
    rfl, rfl, by decide, by decide⟩
  · revert hp pc; decide
  · revert ht tape; decide

theorem witness_UnreachableStatesStopByName :
    (one .w8 5 0x00 [] 5).cfg.tapeLen ≤ (one .w8 5 0x00 [] 5).ptr ∧ (∀ n, Instr.out ≠ .mvr n) ∧ (∀ n, Instr.out ≠ .mvl n) ∧
    (one .w8 1 0x80 [] 0).ptr < (one .w8 1 0x80 [] 0).cfg.tapeLen ∧
    Table.lookup (one .w8 1 0x80 [] 0).jt (one .w8 1 0x80 [] 0).pc = none ∧
    (one .w8 1 0x80 [] 0).tape.read 0 = 0 ∧ (one .w8 1 0xC0 [(0, 1)] 0).tape.read 0 ≠ 0 := by decide

theorem witness_StepRunsDecodedInstruction :
    Ready (loop 1 []) ∧ (loop 1 []).prog[(loop 1 []).pc]? = some 0xC0 := ⟨ready_running _ _ _ _ _ _ _, rfl⟩

/-- The end of a program, and the empty program at its start. -/
theorem witness_RunEndsAtProgramLength :
    (Ready (loop 2 []) ∧ (loop 2 []).pc = (loop 2 []).prog.length) ∧
    (Ready (running .w8 1 [] [] 0 [] 0) ∧ (running .w8 1 [] [] 0 [] 0).pc = (running .w8 1 [] [] 0 [] 0).prog.length) :=
  ⟨⟨ready_running _ _ _ _ _ _ _, rfl⟩, ⟨ready_running _ _ _ _ _ _ _, rfl⟩⟩

theorem witness_NoStepWithoutRun :
    (({ loop 2 [] with status := .done } : State).cmd = none ∧ ({ loop 2 [] with status := .done } : State).phase = .loaded ∧
      ({ loop 2 [] with status := .done } : State).status ≠ .running) ∧
    ((fresh .w8 1).cmd = none ∧ (fresh .w8 1).phase = .constructed) := by decide

theorem witness_LoadedEngineNeverStops : (loop 1 [(0, 255)]).Inv ∧ (loop 1 [(0, 255)]).phase = .loaded ∧ (loop 1 [(0, 255)]).cmd = none :=
  ⟨inv_loop 1 (by decide) _ (by decide), rfl, rfl⟩

/-- A state of each phase that meets the invariant and takes a step. -/
theorem witness_InvariantKeptByEveryStep :
    ((loop 1 [(0, 255)]).Inv ∧ ∃ t, step (loop 1 [(0, 255)]) = .next t) ∧
    (({ fresh .w8 1 with cmd := some (.load [.plus] 1 []) } : State).Inv ∧
      ∃ t, step { fresh .w8 1 with cmd := some (.load [.plus] 1 []) } = .next t) ∧
    (({ fresh .w8 1 with phase := .compiling (RleState.start [.plus] 1 []) } : State).Inv ∧
      ∃ t, step { fresh .w8 1 with phase := .compiling (RleState.start [.plus] 1 []) } = .next t) ∧
    ((pass [0x80, 0xC0]).Inv ∧ ∃ t, step (pass [0x80, 0xC0]) = .next t) :=
  ⟨⟨inv_loop 1 (by decide) _ (by decide), _, rfl⟩, ⟨inv_fresh _, _, rfl⟩,
    ⟨⟨⟨Nat.le_refl 1, CodeMap.default_wf⟩, Nat.zero_lt_one, Memory.wf_nil _ _, Table.wf_nil,
      ⟨⟨rfl, rfl, rfl, rfl⟩, rfl, rleInv_start _, Nat.zero_le 100⟩⟩, _, rfl⟩,
    ⟨⟨Nat.le_refl 1, CodeMap.default_wf⟩, Nat.zero_lt_one, Memory.wf_nil _ _, Table.wf_nil,
      ⟨⟨rfl, rfl, rfl, rfl⟩, PairedUpTo.start _ _, show 2 ≤ 100 by decide⟩⟩, _, rfl⟩

/-- A step that goes on, one that ends the run, and one of each fault. -/
theorem witness_OutcomesOfARunStep :
    (Ready (loop 1 []) ∧ ∃ t, step (loop 1 []) = .next t) ∧ (Ready (loop 2 []) ∧ ∃ t, step (loop 2 []) = .next t) ∧
    (Ready { one .w8 1 0x40 [] 0 with inAnswers := [.error] } ∧
      ∃ t, step { one .w8 1 0x40 [] 0 with inAnswers := [.error] } = .next t) ∧
    (Ready { one .w8 1 0x00 [] 0 with outAnswers := [.error] } ∧
      ∃ t, step { one .w8 1 0x00 [] 0 with outAnswers := [.error] } = .next t) :=
  ⟨⟨⟨rfl, rfl, rfl⟩, _, rfl⟩, ⟨⟨rfl, rfl, rfl⟩, _, rfl⟩, ⟨⟨rfl, rfl, rfl⟩, _, rfl⟩, ⟨⟨rfl, rfl, rfl⟩, _, rfl⟩⟩

theorem witness_ProgramAndConfigurationFixed : (loop 1 []).phase = .loaded ∧ ∃ t, step (loop 1 []) = .next t := ⟨rfl, _, rfl⟩

theorem witness_PointerWrittenOnlyByMovesAndReset :
    ((one .w8 5 0x07 [] 0).phase = .loaded ∧ ∃ t, step (one .w8 5 0x07 [] 0) = .next t ∧ t.ptr ≠ (one .w8 5 0x07 [] 0).ptr) ∧
    (({ loop 2 [] with ptr := 3, status := .done, cmd := some .reset } : State).phase = .loaded ∧
      ∃ t, step { loop 2 [] with ptr := 3, status := .done, cmd := some .reset } = .next t ∧ t.ptr ≠ 3) :=
  ⟨⟨rfl, _, rfl, by decide⟩, ⟨rfl, _, rfl, by decide⟩⟩

theorem witness_CellsWrittenOnlyAtPointer :
    (Ready (one .w8 5 0x87 [] 4) ∧ ∃ t, step (one .w8 5 0x87 [] 4) = .next t ∧
      t.tape.read 4 ≠ (one .w8 5 0x87 [] 4).tape.read 4) ∧
    (Ready { one .w8 5 0x40 [] 4 with inAnswers := [.byte 65] } ∧
      ∃ t, step { one .w8 5 0x40 [] 4 with inAnswers := [.byte 65] } = .next t ∧
        t.tape.read 4 ≠ (one .w8 5 0x40 [] 4).tape.read 4) :=
  ⟨⟨⟨rfl, rfl, rfl⟩, _, rfl, by decide⟩, ⟨⟨rfl, rfl, rfl⟩, _, rfl, by decide⟩⟩

theorem witness_ChannelsMoveOnlyAtTheirInstructions :
    (∃ t, step { one .w8 5 0x40 [] 0 with inAnswers := [.byte 65] } = .next t ∧ t.inAnswers ≠ [.byte 65]) ∧
    (∃ t, step { one .w8 5 0x00 [] 0 with outAnswers := [.ok] } = .next t ∧ t.outStream ≠ []) :=
  ⟨⟨_, rfl, by decide⟩, ⟨_, rfl, by decide⟩⟩

theorem witness_CanonicalTapesAreEqual :
    Memory.wf .w8 5 [(0, 255), (4, 1)] ∧ (∀ p, Memory.read [(0, 255), (4, 1)] p = Memory.read [(0, 255), (4, 1)] p) :=
  ⟨by decide, fun _ => rfl⟩

/-- A width between legal ones, the length 0 and 1, and a code map of each sort. -/
theorem witness_ConstructionChecksItsArguments :
    (12 ≠ 8 ∧ 12 ≠ 16 ∧ 12 ≠ 32 ∧ 12 ≠ 64) ∧ (64 = 8 ∨ 64 = 16 ∨ 64 = 32 ∨ 64 = 64) ∧ (0 : Nat) = 0 ∧ 1 ≤ 1 ∧
    ¬CodeMap.wf { CodeMap.default with rep := ⟨.mvr, .mvr, .mvr, .mvr⟩ } ∧ otherMap.wf := by decide

theorem witness_ResetClearsTapeAndPointer :
    (∀ st ∈ [Status.done, .idle, .fault .inputError 0, .running],
      ({ loop 2 [(0, 5)] with status := st, cmd := some .reset } : State).phase = .loaded ∧
      ({ loop 2 [(0, 5)] with status := st, cmd := some .reset } : State).cmd = some .reset) ∧
    Status.done ≠ .running ∧ Status.running = .running := by decide

theorem witness_RunStartsAtEntry :
    ({ loop 2 [] with status := .fault .outputError 1, cmd := some .run } : State).cmd = some .run ∧
    ({ loop 2 [] with status := .fault .outputError 1, cmd := some .run } : State).phase = .loaded ∧
    ({ loop 2 [] with status := .fault .outputError 1, cmd := some .run } : State).status ≠ .running ∧
    ∃ t, step { loop 2 [] with status := .done, cmd := some .run } = .next t := ⟨rfl, rfl, by decide, _, rfl⟩

theorem witness_OperationsOutOfOrderRefused :
    ({ loop 1 [] with cmd := some .run } : State).status = .running ∧
    (({ fresh .w8 1 with cmd := some .reset } : State).status ≠ .running ∧
      ({ fresh .w8 1 with cmd := some .reset } : State).phase = .constructed) ∧
    (({ pass [] with cmd := some .run } : State).status ≠ .running ∧
      ∃ j, ({ pass [] with cmd := some .run } : State).phase = .pairing j) ∧
    (({ loop 2 [] with status := .idle, cmd := some (.load [] 1 []) } : State).status ≠ .running ∧
      ({ loop 2 [] with status := .idle, cmd := some (.load [] 1 []) } : State).phase = .loaded) ∧
    (loading [.plus] 0 100).phase = .constructed := ⟨rfl, by decide, ⟨by decide, _, rfl⟩, by decide, rfl⟩

theorem witness_InspectionReadsTapeAndPointer :
    (fresh .w8 1).phase = .constructed ∧ (loop 0 []).phase = .loaded ∧ (∃ j, (pass []).phase = .pairing j) ∧
    ∃ r, ({ fresh .w8 1 with phase := .compiling (RleState.start [] 1 []) } : State).phase = .compiling r :=
  ⟨rfl, rfl, ⟨_, rfl⟩, ⟨_, rfl⟩⟩

/-- The pending counts at the ends of the two ranges: 62 grows, 63 splits. -/
theorem witness_RleSameKindCounts : Token.plus.kind = .rep .inc ∧ (1 : Nat) < 63 ∧ 62 < 63 := by decide

theorem witness_RleFullCountSplits :
    Token.plus.kind = .rep .inc ∧
    (∀ wr ∈ [0, 1], ({ RleState.start [.plus] 1 [] with pendKind := some .inc, pendCnt := 63, wr := wr } : RleState).pendCnt = 63) ∧
    (1 : Nat) = 1 ∧ (0 : Nat) ≠ 1 := by decide

/-- Nothing pending and another kind pending, for a repeatable and for a non-repeatable token; the buffer full, with room
for one byte, and with room for two. -/
theorem witness_RleDifferentToken :
    Token.plus.kind = .rep .inc ∧ Token.dot.kind = .nonrep .out ∧ (RleState.start [.plus] 2 []).pendKind = none ∧
    ({ RleState.start [.plus] 2 [] with pendKind := some .dec, pendCnt := 1 } : RleState).pendKind = some .dec ∧
    RepKind.dec ≠ .inc ∧ (2 : Nat) = 2 ∧ (1 + 1 = 2 ∧ 1 ≠ 2) ∧ (0 ≠ 2 ∧ 0 + 1 ≠ 2) := by decide

theorem witness_RleEndOfInput :
    (RleState.start [] 1 []).src = [] ∧ (RleState.start [] 1 []).pendKind = none ∧
    ({ RleState.start [] 1 [] with pendKind := some .inc, pendCnt := 63 } : RleState).pendKind = some .inc ∧
    (1 : Nat) = 1 ∧ (0 : Nat) ≠ 1 := by decide

/-- A head event of each verdict, from a state that meets R83. -/
theorem witness_RleKeepsItsInvariants :
    (RleInv (RleState.start [.plus] 1 []) ∧ ((RleState.start [.plus] 1 []).event CodeMap.default).1 = .more) ∧
    (RleInv (RleState.start [] 1 []) ∧ ((RleState.start [] 1 []).event CodeMap.default).1 = .done) ∧
    (RleInv { RleState.start [.dot] 1 [] with pendKind := some .inc, pendCnt := 63 } ∧
      (RleState.event CodeMap.default { RleState.start [.dot] 1 [] with pendKind := some .inc, pendCnt := 63 }).1 = .rewind) :=
  ⟨⟨rleInv_start _, by decide⟩, ⟨rleInv_start _, by decide⟩,
    ⟨⟨fun h => (by cases h), fun _ => by decide, rfl, by decide, by decide⟩, by decide⟩⟩

/-- A load whose expansion is exactly as long as `P_MAX`, and an empty one. -/
theorem witness_LoadCompilesTheExpansion :
    ((loading [.plus, .plus, .dot] 1 2).phase = .constructed ∧ (loading [.plus, .plus, .dot] 1 2).status ≠ .running ∧
      (loading [.plus, .plus, .dot] 1 2).cmd = some (.load [.plus, .plus, .dot] 1 [2]) ∧ 1 ≤ 1 ∧ (∀ c ∈ [2], 1 ≤ c) ∧
      (expandTokens [.plus, .plus, .dot]).length ≤ (loading [.plus, .plus, .dot] 1 2).cfg.pMax) ∧
    (expandTokens []).length ≤ (loading [] 1 0).cfg.pMax := by decide

theorem witness_OverlongProgramRefused :
    (loading [.plus, .plus, .dot] 1 1).phase = .constructed ∧ (loading [.plus, .plus, .dot] 1 1).status ≠ .running ∧
    (loading [.plus, .plus, .dot] 1 1).cmd = some (.load [.plus, .plus, .dot] 1 [2]) ∧ 1 ≤ 1 ∧ (∀ c ∈ [2], 1 ≤ c) ∧
    (loading [.plus, .plus, .dot] 1 1).cfg.pMax < (expandTokens [.plus, .plus, .dot]).length := by decide

theorem witness_ExpansionIsWellFormed :
    Instr.inc 2 ∈ expandTokens [.plus, .plus, .dot] ∧ Instr.out ∈ expandTokens [.plus, .plus, .dot] ∧
    Token.plus.kind = .rep .inc ∧ (1 : Nat) ≤ 1 ∧ (1 : Nat) ≤ 64 := by decide

/-- The clauses: a loop-open, a loop-close on an empty stack and on another, any other byte, and both ends. -/
theorem witness_PairingPassStep :
    (pass [0x80]).cmd = none ∧ OpenAt CodeMap.default [0x80] 0 ∧ CloseAt CodeMap.default [0xC0] 0 ∧
    (({ pass [0x80, 0xC0] with phase := .pairing { stack := [0], scan := 1 } } : State).cmd = none ∧
      CloseAt CodeMap.default [0x80, 0xC0] 1 ∧ (0 : Nat) ≠ 1) ∧
    (0 < (pass [0x81]).prog.length ∧ ¬OpenAt CodeMap.default [0x81] 0 ∧ ¬CloseAt CodeMap.default [0x81] 0) ∧
    (pass []).prog.length ≤ 0 ∧
    (({ pass [0x80] with phase := .pairing { stack := [0], scan := 1 } } : State).prog.length ≤ 1) := by
  unfold OpenAt CloseAt
  decide

theorem witness_BalancedProgramIsPaired :
    (pass [0x80, 0x81, 0xC0]).cmd = none ∧ (pass [0x80, 0x81, 0xC0]).phase = .pairing { stack := [], scan := 0 } ∧
    (pass [0x80, 0x81, 0xC0]).jt = [] ∧ Balanced CodeMap.default (pass [0x80, 0x81, 0xC0]).prog :=
  ⟨rfl, rfl, rfl, ⟨by unfold NoUnmatchedClose; decide, by decide⟩⟩

theorem witness_UnmatchedCloseRejects :
    (pass [0x80, 0xC0, 0xC0]).cmd = none ∧ (pass [0x80, 0xC0, 0xC0]).phase = .pairing { stack := [], scan := 0 } ∧
    (pass [0x80, 0xC0, 0xC0]).jt = [] ∧ FirstUnmatchedClose CodeMap.default (pass [0x80, 0xC0, 0xC0]).prog 2 :=
  ⟨rfl, rfl, rfl, ⟨by unfold CloseAt; decide, by decide, by decide⟩⟩

theorem witness_UnmatchedOpenRejects :
    (pass [0x80, 0x80, 0xC0]).cmd = none ∧ (pass [0x80, 0x80, 0xC0]).phase = .pairing { stack := [], scan := 0 } ∧
    (pass [0x80, 0x80, 0xC0]).jt = [] ∧ NoUnmatchedClose CodeMap.default (pass [0x80, 0x80, 0xC0]).prog ∧
    depth CodeMap.default (pass [0x80, 0x80, 0xC0]).prog (pass [0x80, 0x80, 0xC0]).prog.length ≠ 0 :=
  ⟨rfl, rfl, rfl, by unfold NoUnmatchedClose; decide, by decide⟩

end Sys2Proof.Tests
end

section
/-! PROOFS. The Command Codec at the level of fields (R60, R62, R64). -/

namespace Sys2Proof

/-- R60: `K = b[7:6]` is the quotient of the byte by 64. -/
theorem decodeFields_fst_toNat (b : Byte) : (decodeFields b).1.toNat = b.toNat / 64 := by
  have hK : (decodeFields b).1.toNat = b.toNat / 64 % 4 := by
    simp [decodeFields, Nat.shiftRight_eq_div_pow]
  have hb : b.toNat < 256 := b.isLt
  omega

/-- R60: `N = b[5:0]` is the remainder of the byte by 64. -/
theorem decodeFields_snd_toNat (b : Byte) : (decodeFields b).2.toNat = b.toNat % 64 := by
  simp [decodeFields]

/-- R62 and R64 for the repeatable family: the byte holds the code and the count it was built from. -/
@[simp] theorem decodeFields_encodeFields_rep (m : CodeMap) (k : RepKind) (c : Count) :
    decodeFields (encodeFields m (.rep k) c) = (m.code (.rep k), c) :=
  decodeFields_append _ _

/-- R62 and R64 for the non-repeatable family: the count is ignored and the payload read back is 0. -/
@[simp] theorem decodeFields_encodeFields_nonrep (m : CodeMap) (k : NonRepKind) (c : Count) :
    decodeFields (encodeFields m (.nonrep k) c) = (m.code (.nonrep k), 0) :=
  decodeFields_append _ _

/-- Settles O5: both families read back a byte built by appending two fields. -/
theorem fieldRoundTrip : Obligations.FieldRoundTrip :=
  fun m => ⟨decodeFields_encodeFields_rep m, decodeFields_encodeFields_nonrep m⟩

/-- Settles O1: the two fields are the quotient and the remainder of the byte by 64. -/
theorem decodeExtractsKindAndPayload : Obligations.DecodeExtractsKindAndPayload :=
  fun b => ⟨decodeFields_fst_toNat b, decodeFields_snd_toNat b⟩

end Sys2Proof
end

section
/-! PROOFS. The Run-Length Encoder (spec/41_rle_encoder.md): an equation for each case of `Emit` and of a flush (R77),
then one for each case of a head event (R78 to R80). -/

namespace Sys2Proof.Machine

section Event
variable {m : CodeMap} {r r1 r2 : RleState}

theorem RleState.emit_of_full (h : r.wr = r.cap) (b : Byte) : r.emit b = none := if_pos h

theorem RleState.emit_of_room (h : r.wr ≠ r.cap) (b : Byte) :
    r.emit b = some { r with buf := r.buf ++ [b], wr := r.wr + 1 } := if_neg h

theorem RleState.flush_of_pendNone (h : r.pendKind = none) : r.flush m = some r := by
  simp [RleState.flush, h]

theorem RleState.flush_of_pendSome {p : RepKind} (h : r.pendKind = some p) :
    r.flush m = r.emit (encodeFields m (.rep p) (BitVec.ofNat 6 r.pendCnt)) := by
  simp [RleState.flush, h]

/-! ### The head event by the family of the token at the head (R82) -/

theorem RleState.event_of_rep {t : Token} {rest : List Token} {k : RepKind} (hs : r.src = t :: rest)
    (hk : t.kind = .rep k) : r.event m = r.onRep m k := by
  simp [RleState.event, hs, hk]

theorem RleState.event_of_nonrep {t : Token} {rest : List Token} {k : NonRepKind} (hs : r.src = t :: rest)
    (hk : t.kind = .nonrep k) : r.event m = r.onNonRep m k := by
  simp [RleState.event, hs, hk]

/-! ### A repeatable token -/

section Rep
variable {k p : RepKind}

/-- R78. -/
theorem RleState.onRep_of_countRoom (hp : r.pendKind = some k) (hc : r.pendCnt < 63) :
    r.onRep m k = (.more, { r with pendCnt := r.pendCnt + 1 }.consume) := if_pos ⟨hp, hc⟩

theorem RleState.onRep_of_flush_none (hn : ¬(r.pendKind = some k ∧ r.pendCnt < 63)) (hf : r.flush m = none) :
    r.onRep m k = (.rewind, r) := by
  simp [RleState.onRep, hn, hf]

theorem RleState.onRep_of_flush_some (hn : ¬(r.pendKind = some k ∧ r.pendCnt < 63)) (hf : r.flush m = some r1) :
    r.onRep m k = (.more, (r1.startRun k).consume) := by
  simp [RleState.onRep, hn, hf]

/-- R80 with nothing pending: a run begins and nothing is emitted. -/
theorem RleState.onRep_of_pendNone (hp : r.pendKind = none) : r.onRep m k = (.more, (r.startRun k).consume) :=
  onRep_of_flush_some (by simp [hp]) (flush_of_pendNone hp)

/-- R79 and R80: a pending run that the token cannot join is kept when the buffer is full. -/
theorem RleState.onRep_pending_full (hp : r.pendKind = some p) (hn : ¬(p = k ∧ r.pendCnt < 63))
    (hw : r.wr = r.cap) : r.onRep m k = (.rewind, r) :=
  onRep_of_flush_none (by simpa [hp] using hn) ((flush_of_pendSome hp).trans (emit_of_full hw _))

/-- R79 and R80: with room in the buffer, a pending run that the token cannot join is emitted and the token begins one
of its own. -/
theorem RleState.onRep_pending_room (hp : r.pendKind = some p) (hn : ¬(p = k ∧ r.pendCnt < 63))
    (hw : r.wr ≠ r.cap) :
    r.onRep m k = (.more, { r with
      buf := r.buf ++ [encodeFields m (.rep p) (BitVec.ofNat 6 r.pendCnt)], wr := r.wr + 1,
      pendKind := some k, pendCnt := 1, src := r.src.tail }) :=
  onRep_of_flush_some (by simpa [hp] using hn) ((flush_of_pendSome hp).trans (emit_of_room hw _))

end Rep

/-! ### A non-repeatable token (R80) -/

section NonRep
variable {k : NonRepKind} {p : RepKind}

theorem RleState.onNonRep_of_flush_none (hf : r.flush m = none) : r.onNonRep m k = (.rewind, r) := by
  simp [RleState.onNonRep, hf]

/-- The token's own emission overflows: the flush stays done and the pending state stays cleared. -/
theorem RleState.onNonRep_of_emit_none (hf : r.flush m = some r1)
    (he : r1.clearPend.emit (encodeFields m (.nonrep k) 0) = none) :
    r.onNonRep m k = (.rewind, r1.clearPend) := by
  simp only [RleState.onNonRep, hf, he]

theorem RleState.onNonRep_of_emit_some (hf : r.flush m = some r1)
    (he : r1.clearPend.emit (encodeFields m (.nonrep k) 0) = some r2) :
    r.onNonRep m k = (.more, r2.consume) := by
  simp only [RleState.onNonRep, hf, he]

theorem RleState.onNonRep_pendNone_full (hp : r.pendKind = none) (hw : r.wr = r.cap) :
    r.onNonRep m k = (.rewind, r.clearPend) :=
  onNonRep_of_emit_none (flush_of_pendNone hp) (emit_of_full (r := r.clearPend) hw _)

theorem RleState.onNonRep_pendNone_room (hp : r.pendKind = none) (hw : r.wr ≠ r.cap) :
    r.onNonRep m k = (.more, { r with
      buf := r.buf ++ [encodeFields m (.nonrep k) 0], wr := r.wr + 1, pendKind := none, pendCnt := 0,
      src := r.src.tail }) :=
  onNonRep_of_emit_some (flush_of_pendNone hp) (emit_of_room (r := r.clearPend) hw _)

theorem RleState.onNonRep_pending_full (hp : r.pendKind = some p) (hw : r.wr = r.cap) :
    r.onNonRep m k = (.rewind, r) :=
  onNonRep_of_flush_none ((flush_of_pendSome hp).trans (emit_of_full hw _))

/-- The flush takes the last place of the buffer. -/
theorem RleState.onNonRep_pending_one (hp : r.pendKind = some p) (hw : r.wr + 1 = r.cap) :
    r.onNonRep m k = (.rewind, { r with
      buf := r.buf ++ [encodeFields m (.rep p) (BitVec.ofNat 6 r.pendCnt)], wr := r.wr + 1,
      pendKind := none, pendCnt := 0 }) :=
  have hroom : r.wr ≠ r.cap := by omega
  onNonRep_of_emit_none ((flush_of_pendSome hp).trans (emit_of_room hroom _)) (emit_of_full hw _)

theorem RleState.onNonRep_pending_room (hp : r.pendKind = some p) (hw : r.wr ≠ r.cap) (hw1 : r.wr + 1 ≠ r.cap) :
    r.onNonRep m k = (.more, { r with
      buf := r.buf ++ [encodeFields m (.rep p) (BitVec.ofNat 6 r.pendCnt), encodeFields m (.nonrep k) 0],
      wr := r.wr + 2, pendKind := none, pendCnt := 0, src := r.src.tail }) := by
  rw [onNonRep_of_emit_some ((flush_of_pendSome hp).trans (emit_of_room hw _)) (emit_of_room hw1 _)]
  simp [RleState.consume, RleState.clearPend]

end NonRep

end Event

/-- Settles O46: by the family of the token and by whether a run is pending, then by the room in the buffer. -/
theorem rleDifferentToken : Obligations.RleDifferentToken := by
  intro m r t rest hs
  obtain rfl : r.src.tail = rest := by rw [hs]; rfl
  refine ⟨fun k hk hp => ?_, fun k p hk hp hne => ?_, fun k hk hp => ?_, fun k p hk hp => ?_⟩
  · exact (RleState.event_of_rep hs hk).trans (RleState.onRep_of_pendNone hp)
  · rw [RleState.event_of_rep hs hk]
    have hn : ¬(p = k ∧ r.pendCnt < 63) := fun h => hne h.1
    exact ⟨RleState.onRep_pending_full hp hn, RleState.onRep_pending_room hp hn⟩
  · rw [RleState.event_of_nonrep hs hk]
    exact ⟨RleState.onNonRep_pendNone_full hp, RleState.onNonRep_pendNone_room hp⟩
  · rw [RleState.event_of_nonrep hs hk]
    exact ⟨RleState.onNonRep_pending_full hp, RleState.onNonRep_pending_one hp, RleState.onNonRep_pending_room hp⟩

/-- Settles O44: the count has room, so the token joins the pending run. -/
theorem rleSameKindCounts : Obligations.RleSameKindCounts := by
  intro m r t rest k hs hk hp hc
  rw [RleState.event_of_rep hs hk, RleState.onRep_of_countRoom hp hc]
  simp [RleState.consume, hs]

/-- Settles O45: a token of the pending kind cannot join a run of 63, so the run is flushed as for another kind. -/
theorem rleFullCountSplits : Obligations.RleFullCountSplits := by
  intro m r t rest k hs hk hp hc
  have hn : ¬(k = k ∧ r.pendCnt < 63) := by omega
  rw [RleState.event_of_rep hs hk]
  refine ⟨RleState.onRep_pending_full hp hn, fun hw => ?_⟩
  rw [RleState.onRep_pending_room hp hn hw]
  simp [hs, hp, hc]

end Sys2Proof.Machine
end

section
/-! PROOFS. The step of a run (spec/43_dispatch.md): an equation of `runStep` for a byte at `pc` and one for the end of
the program, lifted to the step of a ready engine. -/

namespace Sys2Proof.Machine

variable {s : State}

/-- R102 and R103: a fetched byte is decoded and executed. The byte puts `pc` below `P`, so the run does not end. -/
theorem runStep_of_fetch {b : Byte} (hr : s.status = .running) (hf : s.fetch = some b) :
    runStep s = exec (decode s.cfg.codeMap b) s := by
  have hpc : s.pc < s.prog.length := (List.getElem?_eq_some_iff.mp hf).1
  simp [runStep, hr, hf, hpc.ne]

/-- R101. -/
theorem runStep_of_pc_eq_length (hr : s.status = .running) (hpc : s.pc = s.prog.length) :
    runStep s = .next { s with status := .done } := by
  simp [runStep, hr, hpc]

theorem Ready.step_eq_runStep (h : Ready s) : step s = runStep s := step_of_loaded h.cmd h.phase

/-- Settles O27: a ready engine takes the step of a run, which executes the fetched byte. -/
theorem stepRunsDecodedInstruction : Obligations.StepRunsDecodedInstruction :=
  fun _ _ h hb => h.step_eq_runStep.trans (runStep_of_fetch h.status hb)

/-- Settles O28: a ready engine takes the step of a run, which ends the run at `pc = P`. -/
theorem runEndsAtProgramLength : Obligations.RunEndsAtProgramLength :=
  fun _ h hpc => h.step_eq_runStep.trans (runStep_of_pc_eq_length h.status hpc)

end Sys2Proof.Machine
end

section
/-! PROOFS. Pointer moves (spec/44_pointer_move.md): the byte of a repeatable instruction, the remainder of a pointer
difference, and the whole effect of each move. -/

namespace Sys2Proof

/-- R61: a count that is not 0 selects the repeatable column, at the byte's code. -/
theorem decode_append_of_ne_zero (m : CodeMap) (K : Code) {N : Count} (hN : N ≠ 0) :
    decode m (K ++ N) = Instr.ofOp (.rep (m.rep.get K)) N := by
  rw [decode, decodeFields_append, classify, if_pos hN]

namespace Machine

/-- R151: on a tape of at least one cell the mathematical remainder is not negative, so reading it as a natural number
loses nothing. -/
theorem wauPtrSub_cast {L : Nat} (hL : 1 ≤ L) (p n : Nat) :
    (wauPtrSub L p n : Int) = ((p : Int) - n) % L :=
  Int.toNat_of_nonneg (Int.emod_nonneg _ (by omega))

/-- R151: the pointer difference is congruent to `p - n`. -/
theorem dvd_sub_wauPtrSub {L : Nat} (hL : 1 ≤ L) (p n : Nat) :
    (L : Int) ∣ (p : Int) - n - (wauPtrSub L p n : Int) := by
  rw [wauPtrSub_cast hL]
  exact Int.dvd_self_sub_emod

/-- R115: the whole effect of `MVR n`. -/
theorem exec_mvr (n : Count) (s : State) :
    exec (.mvr n) s = .next { s with ptr := wauPtrAdd s.cfg.tapeLen s.ptr n.toNat, pc := s.pc + 1 } := rfl

/-- R117: the whole effect of `MVL n`. -/
theorem exec_mvl (n : Count) (s : State) :
    exec (.mvl n) s = .next { s with ptr := wauPtrSub s.cfg.tapeLen s.ptr n.toNat, pc := s.pc + 1 } := rfl

/-- Settles O13: code 00 is `MVR` in this hardware's repeatable column, and the pointer sum is the remainder by
definition. -/
theorem moveRight : Obligations.MoveRight :=
  ⟨fun _ hn => decode_append_of_ne_zero CodeMap.default 0b00 hn, rfl, exec_mvr⟩

/-- Settles O14: code 01 is `MVL` in this hardware's repeatable column, and the witness is the pointer difference, in
range and congruent on a tape of at least one cell. -/
theorem moveLeft : Obligations.MoveLeft :=
  ⟨fun _ hn => decode_append_of_ne_zero CodeMap.default 0b01 hn, rfl, fun n s hL =>
    ⟨wauPtrSub s.cfg.tapeLen s.ptr n.toNat, exec_mvl n s, wauPtrSub_lt hL _ _, dvd_sub_wauPtrSub hL _ _⟩⟩

end Machine
end Sys2Proof
end

section
/-! PROOFS. Cell arithmetic (spec/45_cell_arith.md): the cell difference as a remainder of integers, the effect that
`INC` and `DEC` share, a write of the cell and `pc` going on, and the two instructions. -/

namespace Sys2Proof.Machine

/-- R147: the modulus is positive, so the mathematical remainder is not negative and reading it as a natural number
loses nothing. -/
theorem wauCellSub_cast (w : Width) (c n : Nat) :
    (wauCellSub w c n : Int) = ((c : Int) - n) % (w.modulus : Int) :=
  Int.toNat_of_nonneg (Int.emod_nonneg _ (by exact_mod_cast w.modulus_pos.ne'))

section CellWrite
variable (s : State) {v : Nat} (hv : v < s.cfg.width.modulus)
include hv

/-- R31: the cell at the pointer takes a value that fits it as it is. -/
theorem State.read_advance_memWrite_ptr : (s.memWrite v).advance.tape.read s.ptr = v :=
  (s.read_memWrite hv s.ptr).trans (if_pos rfl)

/-- R156: no cell but the one at the pointer changes. -/
theorem State.read_advance_memWrite_of_ne {p : Nat} (hp : p ≠ s.ptr) :
    (s.memWrite v).advance.tape.read p = s.tape.read p :=
  (s.read_memWrite hv p).trans (if_neg hp)

end CellWrite

/-- A cell write followed by the advance of `pc` changes no field but the tape and `pc`. -/
theorem State.advance_memWrite_eq (s : State) (v : Nat) :
    (s.memWrite v).advance = { s with tape := (s.memWrite v).advance.tape, pc := s.pc + 1 } := rfl

/-- Settles O16: code 10 is `INC` in this hardware's repeatable column, and the witness is the write of the cell sum,
the remainder by definition. -/
theorem increment : Obligations.Increment :=
  ⟨fun _ hn => decode_append_of_ne_zero CodeMap.default 0b10 hn, rfl, fun n s hptr =>
    have hsum := wauCellAdd_lt s.cfg.width s.cell (countOf n)
    ⟨_, execInc_of_lt hptr n, s.read_advance_memWrite_ptr hsum, fun _ => s.read_advance_memWrite_of_ne hsum,
      s.advance_memWrite_eq _⟩⟩

/-- Settles O17: code 11 is `DEC` in this hardware's repeatable column, and the witness is the write of the cell
difference, which as an integer is the remainder of `c - n`. -/
theorem decrement : Obligations.Decrement :=
  ⟨fun _ hn => decode_append_of_ne_zero CodeMap.default 0b11 hn, rfl, fun n s hptr =>
    have hdiff := wauCellSub_lt s.cfg.width s.cell (countOf n)
    have hread := s.read_advance_memWrite_ptr hdiff
    ⟨_, execDec_of_lt hptr n, (congrArg Nat.cast hread).trans (wauCellSub_cast _ _ _),
      fun _ => s.read_advance_memWrite_of_ne hdiff, s.advance_memWrite_eq _⟩⟩

end Sys2Proof.Machine
end

section
/-! PROOFS. Input and output (spec/46_io.md): the byte of a non-repeatable instruction, the result of a channel call for
each answer of the host, the cell after a failed input, and the two instructions. -/

namespace Sys2Proof

/-- R61: the count 0 selects the non-repeatable column, at the byte's code. -/
theorem decode_append_zero (m : CodeMap) (K : Code) :
    decode m (K ++ (0 : Count)) = Instr.ofOp (.nonrep (m.nonrep.get K)) 0 := by
  rw [decode, decodeFields_append, classify, if_neg (not_not_intro rfl)]

namespace Machine

/-- R152: the byte written is the remainder of the cell by `2^8`. -/
theorem wauTrunc8_toNat (c : Nat) : (wauTrunc8 c).toNat = c % 2 ^ 8 := BitVec.toNat_ofNat c 8

section Output
variable {s : State} {as : List OutAnswer}

/-! ### `OutWrite(v)` and `OUT`, by the host's answer (R172, R174) -/

theorem State.outWrite_of_ok (h : s.outAnswers = .ok :: as) (v : Byte) :
    s.outWrite v = .ok () { s with outAnswers := as, outStream := s.outStream ++ [v] } := by
  simp [State.outWrite, h]

theorem State.outWrite_of_error (h : s.outAnswers = .error :: as) (v : Byte) :
    s.outWrite v = .err { s with outAnswers := as } := by
  simp [State.outWrite, h]

theorem State.outWrite_of_nil (h : s.outAnswers = []) (v : Byte) : s.outWrite v = .hold := by
  simp [State.outWrite, h]

variable (hp : s.ptr < s.cfg.tapeLen)
include hp

/-- R125 and R126. -/
theorem exec_out_of_ok (h : s.outAnswers = .ok :: as) :
    exec .out s =
      .next { s with outAnswers := as, outStream := s.outStream ++ [wauTrunc8 s.cell], pc := s.pc + 1 } := by
  rw [exec, execOut, State.onCell_of_lt hp, State.outWrite_of_ok h]
  rfl

/-- R125 and R163. -/
theorem exec_out_of_error (h : s.outAnswers = .error :: as) :
    exec .out s = .next { s with outAnswers := as, status := .fault .outputError s.pc } := by
  rw [exec, execOut, State.onCell_of_lt hp, State.outWrite_of_error h]
  rfl

/-- R106. -/
theorem exec_out_of_nil (h : s.outAnswers = []) : exec .out s = .next s := by
  rw [exec, execOut, State.onCell_of_lt hp, State.outWrite_of_nil h]

end Output

section FailedInput
variable (s : State)

/-! ### The cell after a failed input (R130) -/

theorem State.read_failedInputCell_of_unchanged (h : s.cfg.inputFailCell = .unchanged) (p : Nat) :
    s.failedInputCell.tape.read p = s.tape.read p := by
  rw [s.failedInputCell_unchanged h]

theorem State.read_failedInputCell_ptr_of_zeroed (h : s.cfg.inputFailCell = .zeroed) :
    s.failedInputCell.tape.read s.ptr = 0 := by
  rw [s.failedInputCell_zeroed h, s.read_memWrite s.cfg.width.modulus_pos, if_pos rfl]

/-- R156: a failed input changes no cell but the one at the pointer. -/
theorem State.read_failedInputCell_of_ne {p : Nat} (hp : p ≠ s.ptr) :
    s.failedInputCell.tape.read p = s.tape.read p := by
  cases h : s.cfg.inputFailCell with
  | unchanged => exact s.read_failedInputCell_of_unchanged h p
  | zeroed => rw [s.failedInputCell_zeroed h, s.read_memWrite s.cfg.width.modulus_pos, if_neg hp]

/-- A failed input that raises its fault changes no field but the tape and the status. -/
theorem State.raise_failedInputCell_eq (c : FaultCode) :
    s.failedInputCell.raise c = { s with tape := s.failedInputCell.tape, status := .fault c s.pc } := by
  unfold State.failedInputCell
  split <;> rfl

end FailedInput

section Input
variable {s : State} {as : List InAnswer}

/-! ### `InRead()` and `IN`, by the host's answer (R171, R174) -/

theorem State.inRead_of_byte {b : Byte} (h : s.inAnswers = .byte b :: as) :
    s.inRead = .ok b { s with inAnswers := as } := by
  simp [State.inRead, h]

theorem State.inRead_of_failure {a : InAnswer} (h : s.inAnswers = a :: as) (ha : a = .error ∨ a = .endOfStream) :
    s.inRead = .err { s with inAnswers := as } := by
  rcases ha with rfl | rfl <;> simp [State.inRead, h]

theorem State.inRead_of_nil (h : s.inAnswers = []) : s.inRead = .hold := by
  simp [State.inRead, h]

variable (hp : s.ptr < s.cfg.tapeLen)
include hp

/-- R128 and R129. -/
theorem exec_inp_of_byte {b : Byte} (h : s.inAnswers = .byte b :: as) :
    exec .inp s = .next (({ s with inAnswers := as } : State).memWrite (wauZext8 b)).advance := by
  rw [exec, execInp, State.onCell_of_lt hp, State.inRead_of_byte h]

/-- R128, R130 and R163. -/
theorem exec_inp_of_failure {a : InAnswer} (h : s.inAnswers = a :: as) (ha : a = .error ∨ a = .endOfStream) :
    exec .inp s = .next (({ s with inAnswers := as } : State).failedInputCell.raise .inputError) := by
  rw [exec, execInp, State.onCell_of_lt hp, State.inRead_of_failure h ha]

/-- R106. -/
theorem exec_inp_of_nil (h : s.inAnswers = []) : exec .inp s = .next s := by
  rw [exec, execInp, State.onCell_of_lt hp, State.inRead_of_nil h]

end Input

/-- Settles O19: code 00 is `OUT` in this hardware's non-repeatable column, and each answer of the host gives the whole
effect; the byte written is the remainder of the cell. -/
theorem outputByAnswer : Obligations.OutputByAnswer :=
  ⟨decode_append_zero CodeMap.default 0b00, rfl, fun s hp =>
    ⟨fun _ h => ⟨wauTrunc8 s.cell, wauTrunc8_toNat s.cell, exec_out_of_ok hp h⟩,
      fun _ h => ⟨_, exec_out_of_error hp h, rfl⟩, exec_out_of_nil hp⟩⟩

/-- Settles O20: code 01 is `IN` in this hardware's non-repeatable column. With a byte the witness is the write of its
value, which every cell width holds; with a failure it is the state after the failed input with the fault raised. -/
theorem inputByAnswer : Obligations.InputByAnswer := by
  refine ⟨decode_append_zero CodeMap.default 0b01, rfl, fun s hp =>
    ⟨fun b as h => ?byte, fun a as h ha => ?failure, exec_inp_of_nil hp⟩⟩
  case byte =>
    have hb := wauZext8_lt s.cfg.width b
    exact ⟨_, exec_inp_of_byte hp h, State.read_advance_memWrite_ptr _ hb,
      fun _ => State.read_advance_memWrite_of_ne _ hb, State.advance_memWrite_eq _ _⟩
  case failure =>
    let s1 : State := { s with inAnswers := as }
    exact ⟨_, exec_inp_of_failure hp h ha, fun hu => s1.read_failedInputCell_of_unchanged hu s.ptr,
      s1.read_failedInputCell_ptr_of_zeroed, fun _ => s1.read_failedInputCell_of_ne,
      s1.raise_failedInputCell_eq .inputError⟩

end Machine
end Sys2Proof
end

section
/-! PROOFS. Loops (spec/47_loop.md): each bracket with its branch taken and not taken, the entries a built table has at
the brackets, and the two instructions. -/

namespace Sys2Proof.Machine

section Branch
variable {s : State} {j : Nat} (hp : s.ptr < s.cfg.tapeLen)
include hp

/-- R135: the branch taken. -/
theorem exec_lopen_of_zero (hz : s.cell = 0) (hj : s.jumpEntry = some j) :
    exec .lopen s = .next (s.jump (j + 1)) := by
  rw [exec, execLopen, State.onCell_of_lt hp, if_pos ((wauIsZero_iff s.cell).mpr hz), hj]

/-- R135: the branch not taken. -/
theorem exec_lopen_of_ne_zero (hz : s.cell ≠ 0) : exec .lopen s = .next s.advance := by
  rw [exec, execLopen, State.onCell_of_lt hp, if_neg (mt (wauIsZero_iff s.cell).mp hz)]

/-- R138: the branch taken. -/
theorem exec_lclose_of_ne_zero (hz : s.cell ≠ 0) (hj : s.jumpEntry = some j) :
    exec .lclose s = .next (s.jump j) := by
  rw [exec, execLclose, State.onCell_of_lt hp, if_neg (mt (wauIsZero_iff s.cell).mp hz), hj]

/-- R138: the branch not taken. -/
theorem exec_lclose_of_zero (hz : s.cell = 0) : exec .lclose s = .next s.advance := by
  rw [exec, execLclose, State.onCell_of_lt hp, if_pos ((wauIsZero_iff s.cell).mpr hz)]

end Branch

section Entry
variable {m : CodeMap} {prog : List Byte} {jt : Table} {i : Nat}

/-! ### The entries of a built table (R97) -/

theorem Paired.exists_entry_of_open (h : Paired m prog jt) (ho : OpenAt m prog i) :
    ∃ j, Table.lookup jt i = some j :=
  (h.complete i).mpr (.inl ho)

theorem Paired.exists_open_of_close (h : Paired m prog jt) (hc : CloseAt m prog i) :
    ∃ j, Table.lookup jt i = some j ∧ OpenAt m prog j := by
  obtain ⟨j, hj⟩ := (h.complete i).mpr (.inr hc)
  obtain ⟨-, hopen⟩ := h.closes i j hj hc
  exact ⟨j, hj, hopen⟩

end Entry

/-- Settles O22: code 10 is `LOPEN` in this hardware's non-repeatable column, the whole cell decides the branch, and a
built table is complete at the loop-opens. -/
theorem loopOpen : Obligations.LoopOpen :=
  ⟨decode_append_zero CodeMap.default 0b10, rfl, fun _ hp =>
    ⟨fun hz _ => exec_lopen_of_zero hp hz, exec_lopen_of_ne_zero hp, Paired.exists_entry_of_open⟩⟩

/-- Settles O23: code 11 is `LCLOSE` in this hardware's non-repeatable column, the whole cell decides the branch, and a
built table leads from a loop-close back to a loop-open. -/
theorem loopClose : Obligations.LoopClose :=
  ⟨decode_append_zero CodeMap.default 0b11, rfl, fun _ hp =>
    ⟨fun hz _ => exec_lclose_of_ne_zero hp hz, exec_lclose_of_zero hp, Paired.exists_open_of_close⟩⟩

end Sys2Proof.Machine
end

section
/-! PROOFS. Wrap-around arithmetic (spec/48_wrap_arith.md): the unsigned forms of the two differences, and the three
groups of operations. -/

namespace Sys2Proof

/-- R5: the smallest legal modulus is `2^8`. -/
theorem Width.two_pow_eight_le_modulus (w : Width) : 2 ^ 8 ≤ w.modulus := by cases w <;> decide

namespace Machine

/-- R151: reducing the count first leaves the remainder as it is, and adding one `L` keeps the difference from going
negative. -/
theorem wauPtrSub_eq_mod {L : Nat} (hL : 1 ≤ L) (p n : Nat) : wauPtrSub L p n = (p + L - n % L) % L := by
  have hn : n % L ≤ p + L := (Nat.mod_lt n hL).le.trans (Nat.le_add_left L p)
  have hint : (wauPtrSub L p n : Int) = ((p + L - n % L : Nat) : Int) % L :=
    calc (wauPtrSub L p n : Int) = ((p : Int) - n) % L := wauPtrSub_cast hL p n
      _ = ((p : Int) - n % L) % L := (Int.sub_emod_emod _ _ _).symm
      _ = ((p : Int) - n % L + L) % L := (Int.add_emod_right _ _).symm
      _ = ((p + L - n % L : Nat) : Int) % L := by congr 1; push_cast [hn]; ring
  exact_mod_cast hint

/-- R154: the cell difference is the pointer difference on a ring of `2^W`. -/
theorem wauCellSub_eq_wauPtrSub (w : Width) (c n : Nat) : wauCellSub w c n = wauPtrSub w.modulus c n := rfl

/-- R147: a count below the modulus needs no reduction. -/
theorem wauCellSub_eq_mod {w : Width} {n : Nat} (hn : n < w.modulus) (c : Nat) :
    wauCellSub w c n = (c + w.modulus - n) % w.modulus := by
  rw [wauCellSub_eq_wauPtrSub, wauPtrSub_eq_mod w.modulus_pos, Nat.mod_eq_of_lt hn]

/-- R147: the cell difference is congruent to `c - n`. -/
theorem dvd_sub_wauCellSub (w : Width) (c n : Nat) :
    (w.modulus : Int) ∣ (c : Int) - n - (wauCellSub w c n : Int) :=
  dvd_sub_wauPtrSub w.modulus_pos c n

/-- Settles O9: the sum is the remainder by definition, and a count of at most 63 is below every legal modulus. -/
theorem cellResultsAreRemainders : Obligations.CellResultsAreRemainders := by
  intro w c n _ _ hn
  have hlt : n < w.modulus := by
    have := w.two_pow_eight_le_modulus
    omega
  exact ⟨rfl, wauCellSub_lt w c n, dvd_sub_wauCellSub w c n, wauCellSub_eq_mod hlt c⟩

/-- Settles O10: the sum is the remainder by definition, and a pointer below `L` makes the tape at least one cell long,
which is all the difference needs. -/
theorem pointerResultsAreRemainders : Obligations.PointerResultsAreRemainders := fun _ p n hp _ _ =>
  have hL := Nat.one_le_of_lt hp
  ⟨rfl, wauPtrSub_lt hL p n, dvd_sub_wauPtrSub hL p n, wauPtrSub_eq_mod hL p n⟩

/-- Settles O12: zero and the widening write are the values themselves by definition, and a byte fits every legal
width. -/
theorem zeroTestTruncationAndExtension : Obligations.ZeroTestTruncationAndExtension :=
  ⟨rfl, wauIsZero_iff, wauTrunc8_toNat, fun w x => ⟨rfl, wauZext8_lt w x⟩⟩

end Machine
end Sys2Proof
end

section
/-! PROOFS. The Command Codec at the level of instructions (spec/40_codec.md, spec/30_encoding.md): an instruction as a
kind and a count, the byte each family is built into, and the two round trips. -/

namespace Sys2Proof

/-! ### An instruction as its kind and its count (R61) -/

@[simp] theorem Instr.kind_ofOp (k : Kind) (n : Count) : (Instr.ofOp k n).kind = k := by
  rcases k with k | k <;> cases k <;> rfl

/-- R48: the count of a repeatable instruction is in `[1, 63]` exactly when it is not 0. -/
theorem Instr.wf_ofOp_rep (k : RepKind) {n : Count} (hn : n ≠ 0) : (Instr.ofOp (.rep k) n).wf = true := by
  cases k <;> exact bne_iff_ne.mpr hn

theorem Instr.wf_ofOp_nonrep (k : NonRepKind) (n : Count) : (Instr.ofOp (.nonrep k) n).wf = true := by
  cases k <;> rfl

/-- Every well-formed instruction is a repeatable kind with a count that is not 0, or a non-repeatable kind. -/
theorem Instr.wf_cases {i : Instr} (h : i.wf = true) :
    (∃ k n, n ≠ 0 ∧ i = Instr.ofOp (.rep k) n) ∨ (∃ k, i = Instr.ofOp (.nonrep k) 0) := by
  cases i with
  | out => exact .inr ⟨.out, rfl⟩
  | inp => exact .inr ⟨.inp, rfl⟩
  | lopen => exact .inr ⟨.lopen, rfl⟩
  | lclose => exact .inr ⟨.lclose, rfl⟩
  | mvr n => exact .inl ⟨.mvr, n, bne_iff_ne.mp h, rfl⟩
  | mvl n => exact .inl ⟨.mvl, n, bne_iff_ne.mp h, rfl⟩
  | inc n => exact .inl ⟨.inc, n, bne_iff_ne.mp h, rfl⟩
  | dec n => exact .inl ⟨.dec, n, bne_iff_ne.mp h, rfl⟩

/-! ### The byte of each family (R62) -/

theorem encode_ofOp_rep (m : CodeMap) (k : RepKind) (n : Count) :
    encode m (Instr.ofOp (.rep k) n) = m.code (.rep k) ++ n := by
  cases k <;> rfl

theorem encode_ofOp_nonrep (m : CodeMap) (k : NonRepKind) (n : Count) :
    encode m (Instr.ofOp (.nonrep k) n) = m.code (.nonrep k) ++ (0 : Count) := by
  cases k <;> rfl

section RoundTrip
variable {m : CodeMap} (hm : m.wf)
include hm

/-- R65 for the repeatable family. -/
theorem decode_encodeFields_rep (k : RepKind) {n : Count} (hn : n ≠ 0) :
    decode m (encodeFields m (.rep k) n) = Instr.ofOp (.rep k) n := by
  rw [encodeFields, decode_append_of_ne_zero m _ hn, m.rep_get_code hm]

/-- R65 for the non-repeatable family, whatever count was given. -/
theorem decode_encodeFields_nonrep (k : NonRepKind) (n : Count) :
    decode m (encodeFields m (.nonrep k) n) = Instr.ofOp (.nonrep k) 0 := by
  rw [encodeFields, decode_append_zero, m.nonrep_get_code hm]

/-- R65. -/
theorem decode_encode {i : Instr} (hi : i.wf = true) : decode m (encode m i) = i := by
  rcases Instr.wf_cases hi with ⟨k, n, hn, rfl⟩ | ⟨k, rfl⟩
  · rw [encode_ofOp_rep]
    exact decode_encodeFields_rep hm k hn
  · rw [encode_ofOp_nonrep]
    exact decode_encodeFields_nonrep hm k 0

/-- R64 and R50: the fields of a byte give its instruction, and the code read in either column leads back. -/
theorem encode_decode (b : Byte) : encode m (decode m b) = b := by
  rw [← append_decodeFields b]
  generalize (decodeFields b).1 = K
  generalize (decodeFields b).2 = N
  by_cases hN : N = 0
  · rw [hN, decode_append_zero, encode_ofOp_nonrep, CodeMap.code, m.nonrep.codeOf_get hm.2]
  · rw [decode_append_of_ne_zero m K hN, encode_ofOp_rep, CodeMap.code, m.rep.codeOf_get hm.1]

end RoundTrip

/-- R49: the instruction of a byte is well-formed, for a payload of 0 never selects the repeatable column. -/
theorem decode_wf (m : CodeMap) (b : Byte) : (decode m b).wf = true := by
  rw [← append_decodeFields b]
  by_cases hN : (decodeFields b).2 = 0
  · rw [hN, decode_append_zero]
    exact Instr.wf_ofOp_nonrep _ 0
  · rw [decode_append_of_ne_zero m _ hN]
    exact Instr.wf_ofOp_rep _ hN

/-- R63: with the count 0, the byte of a repeatable kind is read in the other column, and no non-repeatable kind is a
repeatable one. -/
theorem decode_encodeFields_rep_zero (m : CodeMap) (k : RepKind) :
    decode m (encodeFields m (.rep k) 0) = Instr.ofOp (.nonrep (m.nonrep.get (m.code (.rep k)))) 0 :=
  decode_append_zero m _

theorem decode_encodeFields_rep_zero_ne (m : CodeMap) (k : RepKind) :
    decode m (encodeFields m (.rep k) 0) ≠ Instr.ofOp (.rep k) 0 := by
  rw [decode_encodeFields_rep_zero]
  intro h
  have hkind := congrArg Instr.kind h
  rw [Instr.kind_ofOp, Instr.kind_ofOp] at hkind
  cases hkind

/-- Settles O6: a byte sequence is read one byte at a time, and each byte by its family. -/
theorem instructionRoundTrip : Obligations.InstructionRoundTrip := by
  intro m hm
  refine ⟨fun i rest hi => ⟨decode_encode hm hi, ?_⟩, decode_encodeFields_nonrep hm,
    decode_encodeFields_rep_zero_ne m⟩
  rw [decodeBytes, decode_encode hm hi]

/-- Settles O7: a byte is its two fields, whose payload chooses the family. -/
theorem encodeInvertsDecode : Obligations.EncodeInvertsDecode :=
  fun m hm b => ⟨encode_decode hm b, decode_wf m b⟩

/-- Settles O2: the test of the payload, and this hardware's two columns entry by entry. -/
theorem classifySelectsByPayload : Obligations.ClassifySelectsByPayload :=
  ⟨fun _ _ _ => ⟨fun hN => if_pos hN, fun hN => if_neg (not_not_intro hN)⟩, by decide, by decide⟩

/-! ### The instruction of a byte by its range (R49) -/

/-- A byte with the code `K` and a payload that is not 0 is the repeatable kind at `K`, with the low six bits as its
count. -/
theorem decode_of_payload_ne_zero (m : CodeMap) {b : Byte} (K : Code) (hK : b.toNat / 64 = K.toNat)
    (hN : b.toNat % 64 ≠ 0) : decode m b = Instr.ofOp (.rep (m.rep.get K)) (b.setWidth 6) := by
  have hcode : (decodeFields b).1 = K := BitVec.eq_of_toNat_eq ((decodeFields_fst_toNat b).trans hK)
  have hpayload : (decodeFields b).2 = b.setWidth 6 := BitVec.eq_of_toNat_eq (by simp [decodeFields_snd_toNat])
  have hne : (b.setWidth 6 : Count) ≠ 0 := fun h => hN (by simpa using congrArg BitVec.toNat h)
  rw [decode, hcode, hpayload, classify, if_pos hne]

/-- The bytes `{K, n}` with `n` not 0 are the range from `64 * K + 1` to `64 * K + 63`. -/
theorem decode_of_range (m : CodeMap) {b lo hi : Byte} (K : Code) (hlo : lo.toNat = 64 * K.toNat + 1)
    (hhi : hi.toNat = 64 * K.toNat + 63) (hb : lo ≤ b ∧ b ≤ hi) :
    decode m b = Instr.ofOp (.rep (m.rep.get K)) (b.setWidth 6) := by
  obtain ⟨h1, h2⟩ := hb
  rw [BitVec.le_def] at h1 h2
  exact decode_of_payload_ne_zero m K (by omega) (by omega)

/-- Settles O3: the payload is 0 at the four bytes `{K, 0}` alone, and each range between them has one code. -/
theorem opcodeMapOfEveryByte : Obligations.OpcodeMapOfEveryByte := by
  intro b
  refine ⟨?_, decode_of_range CodeMap.default 0b00 rfl rfl, ?_, decode_of_range CodeMap.default 0b01 rfl rfl,
    ?_, decode_of_range CodeMap.default 0b10 rfl rfl, ?_, decode_of_range CodeMap.default 0b11 rfl rfl⟩
  · rintro rfl; exact decode_append_zero CodeMap.default 0b00
  · rintro rfl; exact decode_append_zero CodeMap.default 0b01
  · rintro rfl; exact decode_append_zero CodeMap.default 0b10
  · rintro rfl; exact decode_append_zero CodeMap.default 0b11

/-- Settles O4: eight closed words, each evaluated. -/
theorem wordsOfEachFamilyDecode : Obligations.WordsOfEachFamilyDecode := by
  unfold Obligations.WordsOfEachFamilyDecode
  decide

/-! ### The calls of `encode` (R63) -/

section Calls
variable (m : CodeMap) (k : RepKind) {n : Nat}

theorem encodeCall_rep_of_gt (h : 63 < n) : encodeCall m (.rep k) n = .error .countAbove63 := if_pos h

theorem encodeCall_rep_zero : encodeCall m (.rep k) 0 = .error .countZero := rfl

theorem encodeCall_rep_of_mem (h1 : 1 ≤ n) (h63 : n ≤ 63) :
    encodeCall m (.rep k) n = .ok (m.code (.rep k) ++ BitVec.ofNat 6 n) :=
  (if_neg (Nat.not_lt.mpr h63)).trans (if_neg (Nat.ne_of_gt h1))

end Calls

/-- Settles O8: by the count for a repeatable kind, and by definition for the other family. -/
theorem encodeRefusesContractViolations : Obligations.EncodeRefusesContractViolations :=
  fun m _ => ⟨fun k => encodeCall_rep_of_gt m k, fun k hn => hn ▸ encodeCall_rep_zero m k,
    fun k => encodeCall_rep_of_mem m k, fun _ => rfl, decode_encodeFields_rep_zero m⟩

end Sys2Proof
end

section
/-! PROOFS. Everything a step can do, said once: the operations of the host, a head event of the encoder, a scan index of
the pairing pass, and the step of a run. -/

namespace Sys2Proof.Machine

/-! ### The host's operations (R173, R187) -/

/-- The state after a load has begun (R86 step 1). -/
def loadBegun (src : List Token) (cap : Nat) (later : List Nat) (s : State) : State :=
  { s with prog := [], jt := [], phase := .compiling (RleState.start src cap later), cmd := none }

theorem beginLoad_of_pos {cap : Nat} (hc : 1 ≤ cap) (src : List Token) (later : List Nat) (s : State) :
    beginLoad src cap later s = .next (loadBegun src cap later s) :=
  if_neg (Nat.ne_of_gt hc)

theorem beginLoad_next {src : List Token} {cap : Nat} {later : List Nat} {s t : State}
    (h : beginLoad src cap later s = .next t) : 1 ≤ cap ∧ t = loadBegun src cap later s := by
  unfold beginLoad at h
  split at h
  · cases h
  · cases h; exact ⟨Nat.one_le_iff_ne_zero.mpr ‹_›, rfl⟩

section TakeCommand
variable {s t : State} {op : HostOp}

/-- R173 and D23. -/
theorem takeCommand_of_running (h : s.status = .running) : takeCommand op s = .refused .operationDuringRun :=
  if_pos h

/-- With no run in progress, an operation is taken or refused by the phase alone. -/
theorem takeCommand_next (h : takeCommand op s = .next t) :
    s.status ≠ .running ∧
    ((∃ src cap later, s.phase = .constructed ∧ op = .load src cap later ∧ 1 ≤ cap ∧
        t = loadBegun src cap later s) ∨
     (s.phase = .loaded ∧ op = .run ∧ t = startRun s) ∨
     (s.phase = .loaded ∧ op = .reset ∧ t = resetVm s)) := by
  unfold takeCommand at h
  split at h
  · cases h
  · refine ⟨‹_›, ?_⟩
    split at h
    case h_1 hp =>
      obtain ⟨hc, rfl⟩ := beginLoad_next h
      exact .inl ⟨_, _, _, hp, rfl, hc, rfl⟩
    case h_7 hp => cases h; exact .inr (.inl ⟨hp, rfl, rfl⟩)
    case h_8 hp => cases h; exact .inr (.inr ⟨hp, rfl, rfl⟩)
    all_goals cases h

end TakeCommand

/-! ### The encoder's part of a load (R86) -/

/-- The invocation after one that returned `REWIND`: the next capacity, or the last one again (log entry 13). -/
def RleState.nextInvocation (r : RleState) : RleState :=
  match r.laterCaps with
  | [] => r.invocation r.cap []
  | c :: cs => r.invocation c cs

theorem RleState.nextInvocation_of_nil {r : RleState} (h : r.laterCaps = []) :
    r.nextInvocation = r.invocation r.cap [] := by
  rw [nextInvocation, h]

theorem RleState.nextInvocation_of_cons {r : RleState} {c : Nat} {cs : List Nat} (h : r.laterCaps = c :: cs) :
    r.nextInvocation = r.invocation c cs := by
  rw [nextInvocation, h]

/-- A later buffer of capacity 0 is refused (R75), any other serves. -/
theorem invokeAgain_cases (r : RleState) (s : State) :
    ((∃ cs, r.laterCaps = 0 :: cs) ∧ invokeAgain r s = .refused .zeroCapacity) ∨
    ((1 ≤ r.cap → 1 ≤ r.nextInvocation.cap) ∧
      invokeAgain r s = .next { s with phase := .compiling r.nextInvocation }) := by
  rcases h : r.laterCaps with _ | ⟨c, cs⟩
  · rw [invokeAgain, h, RleState.nextInvocation_of_nil h]
    exact .inr ⟨id, rfl⟩
  · rw [invokeAgain, h, RleState.nextInvocation_of_cons h]
    by_cases hc : c = 0
    · subst hc
      exact .inl ⟨⟨cs, rfl⟩, rfl⟩
    · exact .inr ⟨fun _ => Nat.one_le_iff_ne_zero.mpr hc, if_neg hc⟩

/-- "append the `wr` bytes written to `prog`" within `P_MAX` (R86). -/
theorem appendBuffer_next {r : RleState} {s t : State} {k : State → Result} (h : appendBuffer r s k = .next t) :
    s.prog.length + r.buf.length ≤ s.cfg.pMax ∧ k { s with prog := s.prog ++ r.buf } = .next t := by
  unfold appendBuffer at h
  split at h
  · exact ⟨‹_›, h⟩
  · cases h

/-- A head event goes on, ends the encoder's part, or returns for another buffer. -/
theorem rleStep_next {r : RleState} {s t : State} (h : rleStep r s = .next t) :
    ∃ v r1, r.event s.cfg.codeMap = (v, r1) ∧
      (v = .more ∧ t = { s with phase := .compiling r1 } ∨
       s.prog.length + r1.buf.length ≤ s.cfg.pMax ∧
        (v = .done ∧
          t = { s with prog := s.prog ++ r1.buf, jt := [], phase := .pairing { stack := [], scan := 0 } } ∨
         v = .rewind ∧ t = { s with prog := s.prog ++ r1.buf, phase := .compiling r1.nextInvocation } ∧
          (1 ≤ r1.cap → 1 ≤ r1.nextInvocation.cap))) := by
  unfold rleStep at h
  split at h
  · rename_i r1 he
    cases h
    exact ⟨_, r1, he, .inl ⟨rfl, rfl⟩⟩
  · rename_i r1 he
    obtain ⟨hlen, h⟩ := appendBuffer_next h
    cases h
    exact ⟨_, r1, he, .inr ⟨hlen, .inl ⟨rfl, rfl⟩⟩⟩
  · rename_i r1 he
    obtain ⟨hlen, h⟩ := appendBuffer_next h
    rcases invokeAgain_cases r1 { s with prog := s.prog ++ r1.buf } with ⟨_, hi⟩ | ⟨hcap, hi⟩
    · rw [hi] at h; cases h
    · rw [hi] at h
      cases h
      exact ⟨_, r1, he, .inr ⟨hlen, .inr ⟨rfl, rfl, hcap⟩⟩⟩

/-! ### The pairing pass (R95) -/

/-- The state the end of a load leaves (R23). -/
def loadDone (s : State) : State := { s with phase := .loaded, tape := [], ptr := 0, pc := 0, status := .idle }

/-- The pair of the loop-open `o` and the loop-close at `n`, recorded both ways (R92). -/
def recordPair (o n : Nat) (s : State) : State := { s with jt := Table.set (Table.set s.jt o n) n o }

section Pass
variable {j : JpuState} {s t : State}

theorem pairClose_of_nil (h : j.stack = []) : pairClose j s = .fault (.unmatchedLoopClose j.scan) := by
  rw [pairClose, h]

theorem pairClose_of_cons {o : Nat} {st : List Nat} (h : j.stack = o :: st) :
    pairClose j s = .next (scanNext st j (recordPair o j.scan s)) := by
  rw [pairClose, h]; rfl

theorem pairEnd_of_nil (h : j.stack = []) : pairEnd j s = .next (loadDone s) := by
  rw [pairEnd, h]; rfl

theorem pairEnd_of_cons {o : Nat} {st : List Nat} (h : j.stack = o :: st) :
    pairEnd j s = .fault (.unmatchedLoopOpen o) := by
  rw [pairEnd, h]

/-- A scan index pushes, pops and records, passes by, or ends the pass with nothing open. -/
theorem jpuStep_next (h : jpuStep j s = .next t) :
    (OpenAt s.cfg.codeMap s.prog j.scan ∧ t = scanNext (j.scan :: j.stack) j s) ∨
    (∃ o st, CloseAt s.cfg.codeMap s.prog j.scan ∧ j.stack = o :: st ∧
      t = scanNext st j (recordPair o j.scan s)) ∨
    (j.scan < s.prog.length ∧ ¬OpenAt s.cfg.codeMap s.prog j.scan ∧ ¬CloseAt s.cfg.codeMap s.prog j.scan ∧
      t = scanNext j.stack j s) ∨
    (s.prog.length ≤ j.scan ∧ j.stack = [] ∧ t = loadDone s) := by
  by_cases ho : OpenAt s.cfg.codeMap s.prog j.scan
  · rw [jpuStep_open ho] at h
    cases h
    exact .inl ⟨ho, rfl⟩
  by_cases hc : CloseAt s.cfg.codeMap s.prog j.scan
  · rw [jpuStep_close hc] at h
    rcases hst : j.stack with _ | ⟨o, st⟩
    · rw [pairClose_of_nil hst] at h; cases h
    · rw [pairClose_of_cons hst] at h
      cases h
      exact .inr (.inl ⟨o, st, hc, rfl, rfl⟩)
  rcases lt_or_ge j.scan s.prog.length with hl | hl
  · rw [jpuStep_other hl ho hc] at h
    cases h
    exact .inr (.inr (.inl ⟨hl, ho, hc, rfl⟩))
  · rw [jpuStep_end ((instrAt_none_iff _ _ _).mpr hl)] at h
    rcases hst : j.stack with _ | ⟨o, st⟩
    · rw [pairEnd_of_nil hst] at h
      cases h
      exact .inr (.inr (.inr ⟨hl, rfl, rfl⟩))
    · rw [pairEnd_of_cons hst] at h; cases h

end Pass

/-! ### The step -/

/-- R109: with no run in progress, a loaded engine stays as it is. -/
theorem step_of_not_running {s : State} (hc : s.cmd = none) (hp : s.phase = .loaded) (hst : s.status ≠ .running) :
    step s = .next s :=
  (step_of_loaded hc hp).trans (if_neg hst)

/-- The ways from a state to the next one. -/
inductive StepTo (s t : State) : Prop where
  | load (src : List Token) (cap : Nat) (later : List Nat) (phase : s.phase = .constructed)
      (status : s.status ≠ .running) (cap_pos : 1 ≤ cap) (eq : t = loadBegun src cap later s)
  | run (phase : s.phase = .loaded) (status : s.status ≠ .running) (cmd : s.cmd = some .run) (eq : t = startRun s)
  | reset (phase : s.phase = .loaded) (status : s.status ≠ .running) (cmd : s.cmd = some .reset)
      (eq : t = resetVm s)
  | compile (r : RleState) (phase : s.phase = .compiling r) (eq : rleStep r s = .next t)
  | pair (j : JpuState) (phase : s.phase = .pairing j) (eq : jpuStep j s = .next t)
  | stay (eq : t = s)
  | finish (ready : Ready s) (pc : s.pc = s.prog.length) (eq : t = { s with status := .done })
  | exec (ready : Ready s) (i : Instr) (fetch : instrAt s.cfg.codeMap s.prog s.pc = some i)
      (eq : exec i s = .next t)

/-- A step that answers a next state is one of these. -/
theorem step_next {s t : State} (h : step s = .next t) : StepTo s t := by
  rcases hc : s.cmd with _ | op
  · rcases hp : s.phase with _ | r | j | _
    · rw [step_of_constructed hc hp] at h
      cases h
      exact .stay rfl
    · exact .compile r hp ((step_of_compiling hc hp).symm.trans h)
    · exact .pair j hp ((step_of_pairing hc hp).symm.trans h)
    · by_cases hst : s.status = .running
      · have hr : Ready s := ⟨hp, hst, hc⟩
        rcases hr.step_cases h with ⟨hpc, ht⟩ | ⟨i, hi, he⟩
        · exact .finish hr hpc ht
        · exact .exec hr i hi he
      · rw [step_of_not_running hc hp hst] at h
        cases h
        exact .stay rfl
  · rw [step_of_cmd hc] at h
    obtain ⟨hst, ⟨src, cap, later, hp, rfl, hcap, ht⟩ | ⟨hp, rfl, ht⟩ | ⟨hp, rfl, ht⟩⟩ := takeCommand_next h
    · exact .load src cap later hp hst hcap ht
    · exact .run hp hst hc ht
    · exact .reset hp hst hc ht

end Sys2Proof.Machine
end

section
/-! PROOFS. The invariant of an engine (R13 to R17, R83, R97): everything an instruction can do, and what keeps
the invariant on each way from a state to the next one. -/

namespace Sys2Proof.Machine

/-! ### The instructions by what they write -/

/-- The ways an instruction goes from a state to the next one. -/
inductive ExecTo (i : Instr) (s t : State) : Prop where
  | move (n : Count) (instr : i = .mvr n ∨ i = .mvl n) (p : Nat) (eq : t = (s.setPtr p).advance)
  | arith (n : Count) (instr : i = .inc n ∨ i = .dec n) (v : Nat) (eq : t = (s.memWrite v).advance)
  | goOn (instr : i = .lopen ∨ i = .lclose) (eq : t = s.advance)
  | branch (instr : i = .lopen ∨ i = .lclose) (j target : Nat) (entry : s.jumpEntry = some j)
      (close : target = j ∨ target = j + 1) (eq : t = s.jump target)
  | hold (eq : t = s)
  | inOk (instr : i = .inp) (b : Byte) (as : List InAnswer) (answer : s.inAnswers = .byte b :: as)
      (eq : t = (({ s with inAnswers := as } : State).memWrite (wauZext8 b)).advance)
  | inErr (instr : i = .inp) (a : InAnswer) (as : List InAnswer) (answer : s.inAnswers = a :: as)
      (eq : t = (({ s with inAnswers := as } : State).failedInputCell).raise .inputError)
  | outOk (instr : i = .out) (v : Byte) (as : List OutAnswer) (answer : s.outAnswers = .ok :: as)
      (eq : t = { s with outAnswers := as, outStream := s.outStream ++ [v], pc := s.pc + 1 })
  | outErr (instr : i = .out) (as : List OutAnswer) (answer : s.outAnswers = .error :: as)
      (eq : t = { s with outAnswers := as, status := .fault .outputError s.pc })

theorem exec_next {i : Instr} {s t : State} (h : exec i s = .next t) : ExecTo i s t := by
  cases i with
  | out =>
    obtain ⟨_, ⟨_, ht⟩ | ⟨as, ha, ht⟩ | ⟨as, ha, ht⟩⟩ := execOut_next h
    · exact .hold ht
    · exact .outOk rfl _ as ha ht
    · exact .outErr rfl as ha ht
  | inp =>
    obtain ⟨_, ⟨_, ht⟩ | ⟨b, as, ha, ht⟩ | ⟨a, as, ha, _, ht⟩⟩ := execInp_next h
    · exact .hold ht
    · exact .inOk rfl b as ha ht
    · exact .inErr rfl a as ha ht
  | lopen =>
    obtain ⟨_, ⟨_, j, hj, ht⟩ | ⟨_, ht⟩⟩ := execLopen_next h
    · exact .branch (.inl rfl) j _ hj (.inr rfl) ht
    · exact .goOn (.inl rfl) ht
  | lclose =>
    obtain ⟨_, ⟨_, ht⟩ | ⟨_, j, hj, ht⟩⟩ := execLclose_next h
    · exact .goOn (.inr rfl) ht
    · exact .branch (.inr rfl) j _ hj (.inl rfl) ht
  | mvr n => exact .move n (.inl rfl) _ (execMvr_next h)
  | mvl n => exact .move n (.inr rfl) _ (execMvl_next h)
  | inc n => exact .arith n (.inl rfl) _ (execInc_next h).2
  | dec n => exact .arith n (.inr rfl) _ (execDec_next h).2

section Effects
variable {i : Instr} {s t : State} (h : exec i s = .next t)
include h

/-- R14: `pc` stays, goes on, or follows the jump table. -/
theorem exec_pc : t.pc = s.pc ∨ t.pc = s.pc + 1 ∨ ∃ j, s.jumpEntry = some j ∧ (t.pc = j ∨ t.pc = j + 1) := by
  cases exec_next h with
  | move _ _ _ eq | arith _ _ _ eq | goOn _ eq | inOk _ _ _ _ eq | outOk _ _ _ _ eq => subst eq; exact .inr (.inl rfl)
  | branch _ j _ entry close eq => subst eq; exact .inr (.inr ⟨j, entry, close⟩)
  | hold eq | outErr _ _ _ eq => subst eq; exact .inl rfl
  | inErr _ _ _ _ eq => subst eq; exact .inl (by simp)

/-- R163: the status is written only by an `IN` or an `OUT` that faults, with `pc` and `ptr` in place. -/
theorem exec_status :
    t.status = s.status ∨
    (i = .inp ∧ t.status = .fault .inputError s.pc ∧ t.pc = s.pc ∧ t.ptr = s.ptr) ∨
    (i = .out ∧ t.status = .fault .outputError s.pc ∧ t.pc = s.pc ∧ t.ptr = s.ptr ∧ t.tape = s.tape) := by
  cases exec_next h with
  | move _ _ _ eq | arith _ _ _ eq | goOn _ eq | branch _ _ _ _ _ eq | hold eq | inOk _ _ _ _ eq
  | outOk _ _ _ _ eq => subst eq; exact .inl rfl
  | inErr instr _ _ _ eq => subst eq; exact .inr (.inl ⟨instr, by simp⟩)
  | outErr instr _ _ eq => subst eq; exact .inr (.inr ⟨instr, rfl, rfl, rfl, rfl⟩)

end Effects

/-! ### What a phase of the boot order holds -/

section Phases
variable {s : State}

theorem phaseInv_of_compiling {r : RleState} (hp : s.phase = .compiling r) :
    PhaseInv s ↔ Fresh s ∧ s.jt = [] ∧ RleInv r ∧ s.prog.length ≤ s.cfg.pMax := by
  rw [PhaseInv, hp]

theorem phaseInv_of_pairing {j : JpuState} (hp : s.phase = .pairing j) :
    PhaseInv s ↔ Fresh s ∧ PairedUpTo s.cfg.codeMap s.prog s.jt j.stack j.scan ∧ s.prog.length ≤ s.cfg.pMax := by
  rw [PhaseInv, hp]

theorem phaseInv_of_constructed (hp : s.phase = .constructed) :
    PhaseInv s ↔ Fresh s ∧ s.prog = [] ∧ s.jt = [] := by
  rw [PhaseInv, hp]

theorem phaseInv_of_loaded (hp : s.phase = .loaded) :
    PhaseInv s ↔ Paired s.cfg.codeMap s.prog s.jt ∧ s.pc ≤ s.prog.length ∧ s.prog.length ≤ s.cfg.pMax ∧
      StatusOk s := by
  rw [PhaseInv, hp]

end Phases

/-- R83: whatever a head event comes to, the encoder's invariants hold after it. -/
theorem RleInv.event {m : CodeMap} {r : RleState} (h : RleInv r) : RleInv (r.event m).2 := by
  unfold RleState.event
  split
  · exact h.onEnd
  · split
    · exact h.onRep _
    · exact h.onNonRep _

theorem RleInv.nextInvocation {r : RleState} (h : RleInv r) (hc : 1 ≤ r.nextInvocation.cap) :
    RleInv r.nextInvocation := by
  rcases hl : r.laterCaps with _ | ⟨c, cs⟩
  · rw [RleState.nextInvocation_of_nil hl] at hc ⊢
    exact h.invocation hc []
  · rw [RleState.nextInvocation_of_cons hl] at hc ⊢
    exact h.invocation hc cs

/-! ### The invariant, way by way -/

section Keeps
variable {s t : State} (h : s.Inv)
include h

theorem State.Inv.loadBegun (hp : s.phase = .constructed) (src : List Token) {cap : Nat} (hc : 1 ≤ cap)
    (later : List Nat) : (loadBegun src cap later s).Inv := by
  obtain ⟨fresh, -, -⟩ := (phaseInv_of_constructed hp).mp h.phase
  exact ⟨h.cfg, h.ptr, h.tape, Table.wf_nil, fresh, rfl, RleInv.start src hc later, Nat.zero_le _⟩

theorem State.Inv.startRun (hp : s.phase = .loaded) : (startRun s).Inv := by
  obtain ⟨paired, -, max, -⟩ := (phaseInv_of_loaded hp).mp h.phase
  exact ⟨h.cfg, h.ptr, h.tape, h.jt,
    (phaseInv_of_loaded (s := Machine.startRun s) hp).mpr ⟨paired, Nat.zero_le _, max, trivial⟩⟩

theorem State.Inv.resetVm (hp : s.phase = .loaded) : (resetVm s).Inv := by
  obtain ⟨paired, pc, max, -⟩ := (phaseInv_of_loaded hp).mp h.phase
  exact ⟨h.cfg, h.cfg.1, Memory.wf_nil _ _, h.jt,
    (phaseInv_of_loaded (s := Machine.resetVm s) hp).mpr ⟨paired, pc, max, trivial⟩⟩

theorem State.Inv.rleStep {r : RleState} (hp : s.phase = .compiling r) (hs : rleStep r s = .next t) : t.Inv := by
  obtain ⟨fresh, jt, rle, max⟩ := (phaseInv_of_compiling hp).mp h.phase
  obtain ⟨v, r1, he, hcase⟩ := rleStep_next hs
  have rle1 : RleInv r1 := by
    have := rle.event (m := s.cfg.codeMap)
    rwa [he] at this
  rcases hcase with ⟨-, rfl⟩ | ⟨len, ⟨-, rfl⟩ | ⟨-, rfl, cap⟩⟩
  · exact ⟨h.cfg, h.ptr, h.tape, h.jt, fresh, jt, rle1, max⟩
  · exact ⟨h.cfg, h.ptr, h.tape, Table.wf_nil, fresh, PairedUpTo.start _ _, List.length_append.trans_le len⟩
  · exact ⟨h.cfg, h.ptr, h.tape, h.jt, fresh, jt, rle1.nextInvocation (cap rle1.capacity),
      List.length_append.trans_le len⟩

theorem State.Inv.jpuStep {j : JpuState} (hp : s.phase = .pairing j) (hs : jpuStep j s = .next t) : t.Inv := by
  obtain ⟨fresh, built, max⟩ := (phaseInv_of_pairing hp).mp h.phase
  rcases jpuStep_next hs with ⟨ho, rfl⟩ | ⟨o, st, hc, hst, rfl⟩ | ⟨hl, ho, hc, rfl⟩ | ⟨hl, hst, rfl⟩
  · exact ⟨h.cfg, h.ptr, h.tape, h.jt, fresh, built.push ho, max⟩
  · rw [hst] at built
    exact ⟨h.cfg, h.ptr, h.tape, Table.wf_set (Table.wf_set h.jt _ _) _ _, fresh, built.pair hc, max⟩
  · exact ⟨h.cfg, h.ptr, h.tape, h.jt, fresh, built.skip hl ho hc, max⟩
  · rw [hst, Nat.le_antisymm built.bound hl] at built
    exact ⟨h.cfg, h.cfg.1, Memory.wf_nil _ _, h.jt, built.finish, Nat.zero_le _, max, trivial⟩

theorem State.Inv.done (hp : s.phase = .loaded) (hpc : s.pc = s.prog.length) :
    ({ s with status := .done } : State).Inv := by
  obtain ⟨paired, pc, max, -⟩ := (phaseInv_of_loaded hp).mp h.phase
  exact ⟨h.cfg, h.ptr, h.tape, h.jt,
    (phaseInv_of_loaded (s := { s with status := .done }) hp).mpr ⟨paired, pc, max, hpc⟩⟩

end Keeps

section Instruction
variable {i : Instr} {s t : State} (hr : Ready s)
  (hi : instrAt s.cfg.codeMap s.prog s.pc = some i) (he : exec i s = .next t)
include hr hi he

/-- R163: a fault of a run is recorded at its own `IN` or `OUT`. -/
theorem exec_statusOk : StatusOk t := by
  obtain ⟨hcfg, hprog, -, -, -⟩ := exec_frame he
  rw [StatusOk, hcfg, hprog]
  rcases exec_status he with hst | ⟨rfl, hst, hpc, -⟩ | ⟨rfl, hst, hpc, -, -⟩
  · rw [hst, hr.status]; trivial
  · rw [hst, hpc]; exact ⟨rfl, hi⟩
  · rw [hst, hpc]; exact ⟨rfl, hi⟩

variable (h : s.Inv)
include h

/-- R14: an instruction goes on to the next byte at most, or to an entry of the jump table or the byte after it. -/
theorem exec_pc_le : t.pc ≤ s.prog.length := by
  obtain ⟨paired, -, -, -⟩ := (phaseInv_of_loaded hr.phase).mp h.phase
  have hpc : s.pc < s.prog.length := (instrAt_isSome_iff _ _ _).mp ⟨i, hi⟩
  rcases exec_pc he with hpc' | hpc' | ⟨j, hj, hpc'⟩
  · omega
  · omega
  · have := paired.inRange _ _ hj
    omega

theorem State.Inv.exec : t.Inv := by
  obtain ⟨hcfg, hprog, hjt, hphase, -⟩ := exec_frame he
  obtain ⟨tape, ptr⟩ := exec_keeps_tape he h.cfg.1 h.ptr h.tape
  obtain ⟨paired, -, max, -⟩ := (phaseInv_of_loaded hr.phase).mp h.phase
  have hpc := exec_pc_le hr hi he h
  rw [← hcfg] at paired max ptr tape
  rw [← hprog] at paired max hpc
  rw [← hjt] at paired
  exact ⟨hcfg ▸ h.cfg, ptr, tape, hjt ▸ h.jt,
    (phaseInv_of_loaded (hphase.trans hr.phase)).mpr ⟨paired, hpc, max, exec_statusOk hr hi he⟩⟩

end Instruction

/-- Settles O31: by the ways from a state to the next one. -/
theorem invariantKeptByEveryStep : Obligations.InvariantKeptByEveryStep := by
  intro s t h hs
  cases step_next hs with
  | load src cap later phase _ cap_pos eq => exact eq ▸ h.loadBegun phase src cap_pos later
  | run phase _ _ eq => exact eq ▸ h.startRun phase
  | reset phase _ _ eq => exact eq ▸ h.resetVm phase
  | compile r phase eq => exact h.rleStep phase eq
  | pair j phase eq => exact h.jpuStep phase eq
  | stay eq => exact eq ▸ h
  | finish ready pc eq => exact eq ▸ h.done ready.phase pc
  | exec ready i fetch eq => exact State.Inv.exec ready fetch eq h

/-- Construction leaves a state that meets the invariant. -/
theorem State.Inv.initial {c : EngineConfig} (hc : c.wf) : (State.initial c).Inv :=
  ⟨hc, hc.1, Memory.wf_nil _ _, Table.wf_nil, ⟨rfl, rfl, rfl, rfl⟩, rfl, rfl⟩

/-- Settles O32: `State.reset` is a construction with the default configuration, which is legal. -/
theorem resetMeetsInvariant : Obligations.ResetMeetsInvariant :=
  State.Inv.initial ⟨show 1 ≤ 3000 by decide, CodeMap.default_wf⟩

end Sys2Proof.Machine
end

section
/-! PROOFS. The steps of a run and of a loaded engine (spec/43_dispatch.md): what each step writes, that none stops the
engine, and holds. -/

namespace Sys2Proof.Machine

/-! ### What one instruction writes -/

/-- R156: `MemWrite` touches no cell but the one at the pointer. -/
theorem State.read_memWrite_of_ne (s : State) (v : Nat) {p : Nat} (hp : p ≠ s.ptr) :
    (s.memWrite v).tape.read p = s.tape.read p := by
  rw [State.memWrite_tape, Memory.read_write, if_neg hp]

section Writes
variable {i : Instr} {s t : State} (h : exec i s = .next t)
include h

/-- R13. -/
theorem exec_ptr : t.ptr = s.ptr ∨ ∃ n, i = .mvr n ∨ i = .mvl n := by
  cases exec_next h with
  | move n instr _ _ => exact .inr ⟨n, instr⟩
  | arith _ _ _ eq | goOn _ eq | branch _ _ _ _ _ eq | hold eq | inOk _ _ _ _ eq | outOk _ _ _ _ eq
  | outErr _ _ _ eq => subst eq; exact .inl rfl
  | inErr _ _ _ _ eq => subst eq; exact .inl (by simp)

/-- R31 and R156. -/
theorem exec_read (p : Nat) :
    t.tape.read p = s.tape.read p ∨ p = s.ptr ∧ (i = .inp ∨ ∃ n, i = .inc n ∨ i = .dec n) := by
  cases exec_next h with
  | move _ _ _ eq | goOn _ eq | branch _ _ _ _ _ eq | hold eq | outOk _ _ _ _ eq | outErr _ _ _ eq =>
    subst eq; exact .inl rfl
  | arith n instr v eq =>
    subst eq
    exact or_iff_not_imp_right.mpr fun hp => s.read_memWrite_of_ne v fun e => hp ⟨e, .inr ⟨n, instr⟩⟩
  | inOk instr b as _ eq =>
    subst eq
    exact or_iff_not_imp_right.mpr fun hp =>
      State.read_memWrite_of_ne { s with inAnswers := as } _ fun e => hp ⟨e, .inl instr⟩
  | inErr instr _ as _ eq =>
    subst eq
    exact or_iff_not_imp_right.mpr fun hp =>
      State.read_failedInputCell_of_ne { s with inAnswers := as } fun e => hp ⟨e, .inl instr⟩

/-- R35. -/
theorem exec_inAnswers : t.inAnswers = s.inAnswers ∨ i = .inp ∧ ∃ a, s.inAnswers = a :: t.inAnswers := by
  cases exec_next h with
  | move _ _ _ eq | arith _ _ _ eq | goOn _ eq | branch _ _ _ _ _ eq | hold eq | outOk _ _ _ _ eq
  | outErr _ _ _ eq => subst eq; exact .inl rfl
  | inOk instr b _ answer eq => subst eq; exact .inr ⟨instr, .byte b, answer⟩
  | inErr instr a _ answer eq => subst eq; exact .inr ⟨instr, a, by simpa using answer⟩

/-- R39 and D8. -/
theorem exec_output :
    (t.outAnswers = s.outAnswers ∧ t.outStream = s.outStream) ∨
    (i = .out ∧
      ((s.outAnswers = .ok :: t.outAnswers ∧ ∃ v, t.outStream = s.outStream ++ [v]) ∨
       (s.outAnswers = .error :: t.outAnswers ∧ t.outStream = s.outStream))) := by
  cases exec_next h with
  | move _ _ _ eq | arith _ _ _ eq | goOn _ eq | branch _ _ _ _ _ eq | hold eq | inOk _ _ _ _ eq =>
    subst eq; exact .inl ⟨rfl, rfl⟩
  | inErr _ _ _ _ eq => subst eq; exact .inl (by simp)
  | outOk instr v _ answer eq => subst eq; exact .inr ⟨instr, .inl ⟨answer, v, rfl⟩⟩
  | outErr instr _ answer eq => subst eq; exact .inr ⟨instr, .inr ⟨answer, rfl⟩⟩

end Writes

/-! ### What one step of a run writes -/

/-- Settles O33: the end of the run, or an instruction that leaves the status or faults. -/
theorem outcomesOfARunStep : Obligations.OutcomesOfARunStep := by
  intro s t hr hs
  rcases hr.step_cases hs with hend | ⟨i, hi, he⟩
  · exact .inr (.inl hend)
  · rcases exec_status he with hst | ⟨rfl, hin⟩ | ⟨rfl, hout⟩
    · exact .inl (hst.trans hr.status)
    · exact .inr (.inr (.inl ⟨hi, hin⟩))
    · exact .inr (.inr (.inr ⟨hi, hout⟩))

/-- Settles O36: the end of a run writes no cell, and an instruction only the one at the pointer. -/
theorem cellsWrittenOnlyAtPointer : Obligations.CellsWrittenOnlyAtPointer := by
  intro s t hr hs p hne
  rcases hr.step_cases hs with ⟨-, rfl⟩ | ⟨i, hi, he⟩
  · exact absurd rfl hne
  · rcases exec_read he p with hp | ⟨hp, hinstr⟩
    · exact absurd hp hne
    · rw [hi, Option.some.injEq]
      exact ⟨hp, hinstr.imp id fun ⟨n, hn⟩ => ⟨n, hn.imp (congrArg some) (congrArg some)⟩⟩

/-! ### What one step of an engine writes -/

/-- The encoder's part of a load touches the program, the table and the phase alone. -/
theorem rleStep_frame {r : RleState} {s t : State} (h : rleStep r s = .next t) :
    t.cfg = s.cfg ∧ t.inAnswers = s.inAnswers ∧ t.outAnswers = s.outAnswers ∧ t.outStream = s.outStream := by
  obtain ⟨_, _, _, ⟨-, rfl⟩ | ⟨-, ⟨-, rfl⟩ | ⟨-, rfl, -⟩⟩⟩ := rleStep_next h <;> exact ⟨rfl, rfl, rfl, rfl⟩

/-- The pairing pass touches neither the configuration nor the channels. -/
theorem jpuStep_frame {j : JpuState} {s t : State} (h : jpuStep j s = .next t) :
    t.cfg = s.cfg ∧ t.inAnswers = s.inAnswers ∧ t.outAnswers = s.outAnswers ∧ t.outStream = s.outStream := by
  obtain ⟨-, rfl⟩ | ⟨_, _, -, -, rfl⟩ | ⟨-, -, -, rfl⟩ | ⟨-, -, rfl⟩ := jpuStep_next h <;>
    exact ⟨rfl, rfl, rfl, rfl⟩

/-- Settles O34: a load is no step of a loaded engine, and every other step leaves the four fields. -/
theorem programAndConfigurationFixed : Obligations.ProgramAndConfigurationFixed := by
  intro s t hs
  cases step_next hs with
  | load _ _ _ phase _ _ eq => subst eq; exact ⟨rfl, fun hp => nomatch phase.symm.trans hp⟩
  | run phase _ _ eq | reset phase _ _ eq | stay eq | finish _ _ eq => subst eq; exact ⟨rfl, fun hp => ⟨rfl, rfl, hp⟩⟩
  | compile r phase eq => exact ⟨(rleStep_frame eq).1, fun hp => nomatch phase.symm.trans hp⟩
  | pair j phase eq => exact ⟨(jpuStep_frame eq).1, fun hp => nomatch phase.symm.trans hp⟩
  | exec _ i _ eq =>
    obtain ⟨cfg, prog, jt, phase, -⟩ := exec_frame eq
    exact ⟨cfg, fun hp => ⟨prog, jt, phase.trans hp⟩⟩

/-- Settles O35: of the steps of a loaded engine only a reset and an instruction may write the pointer. -/
theorem pointerWrittenOnlyByMovesAndReset : Obligations.PointerWrittenOnlyByMovesAndReset := by
  intro s t hp hs hne
  cases step_next hs with
  | load _ _ _ phase _ _ _ => cases phase.symm.trans hp
  | run _ _ _ eq | stay eq | finish _ _ eq => subst eq; exact absurd rfl hne
  | reset _ _ cmd eq => subst eq; exact .inl ⟨cmd, rfl⟩
  | compile _ phase _ => cases phase.symm.trans hp
  | pair _ phase _ => cases phase.symm.trans hp
  | exec ready i fetch eq =>
    rcases exec_ptr eq with hptr | ⟨n, hi⟩
    · exact absurd hptr hne
    · rw [fetch]
      exact .inr ⟨ready, n, hi.imp (congrArg some) (congrArg some)⟩

/-- Settles O37: of all steps only an instruction may touch the channels. -/
theorem channelsMoveOnlyAtTheirInstructions : Obligations.ChannelsMoveOnlyAtTheirInstructions := by
  intro s t hs
  cases step_next hs with
  | load _ _ _ _ _ _ eq | run _ _ _ eq | reset _ _ _ eq | stay eq | finish _ _ eq =>
    subst eq; exact ⟨.inl rfl, .inl ⟨rfl, rfl⟩⟩
  | compile _ _ eq =>
    obtain ⟨-, input, output⟩ := rleStep_frame eq
    exact ⟨.inl input, .inl output⟩
  | pair _ _ eq =>
    obtain ⟨-, input, output⟩ := jpuStep_frame eq
    exact ⟨.inl input, .inl output⟩
  | exec ready i fetch eq =>
    rw [fetch]
    exact ⟨(exec_inAnswers eq).imp id fun ⟨hi, ha⟩ => ⟨ready, congrArg some hi, ha⟩,
      (exec_output eq).imp id fun ⟨hi, ha⟩ => ⟨ready, congrArg some hi, ha⟩⟩

/-! ### No step of a loaded engine stops it -/

/-- R102 to R104, by the instruction at `pc`. -/
theorem Ready.step_of_instrAt {s : State} {i : Instr} (h : Ready s) (hi : instrAt s.cfg.codeMap s.prog s.pc = some i) :
    step s = exec i s := by
  obtain ⟨b, hb, rfl⟩ := Option.map_eq_some_iff.mp hi
  exact stepRunsDecodedInstruction s b h hb

/-- R106 and R107: with the pointer on the tape, and with a table entry where the instruction is a bracket, every
instruction answers a next state. -/
theorem exec_total {i : Instr} {s : State} (hp : s.ptr < s.cfg.tapeLen)
    (hj : i = .lopen ∨ i = .lclose → ∃ j, s.jumpEntry = some j) : ∃ t, exec i s = .next t := by
  cases i with
  | out =>
    rcases ha : s.outAnswers with _ | ⟨_ | _, as⟩
    · exact ⟨_, exec_out_of_nil hp ha⟩
    · exact ⟨_, exec_out_of_ok hp ha⟩
    · exact ⟨_, exec_out_of_error hp ha⟩
  | inp =>
    rcases ha : s.inAnswers with _ | ⟨b | _ | _, as⟩
    · exact ⟨_, exec_inp_of_nil hp ha⟩
    · exact ⟨_, exec_inp_of_byte hp ha⟩
    · exact ⟨_, exec_inp_of_failure hp ha (.inl rfl)⟩
    · exact ⟨_, exec_inp_of_failure hp ha (.inr rfl)⟩
  | lopen =>
    obtain ⟨j, hj⟩ := hj (.inl rfl)
    by_cases hz : s.cell = 0
    · exact ⟨_, exec_lopen_of_zero hp hz hj⟩
    · exact ⟨_, exec_lopen_of_ne_zero hp hz⟩
  | lclose =>
    obtain ⟨j, hj⟩ := hj (.inr rfl)
    by_cases hz : s.cell = 0
    · exact ⟨_, exec_lclose_of_zero hp hz⟩
    · exact ⟨_, exec_lclose_of_ne_zero hp hz hj⟩
  | mvr n => exact ⟨_, exec_mvr n s⟩
  | mvl n => exact ⟨_, exec_mvl n s⟩
  | inc n => exact ⟨_, execInc_of_lt hp n⟩
  | dec n => exact ⟨_, execDec_of_lt hp n⟩

/-- Settles O30: with a run in progress `pc` is at `P` or at an instruction, and a bracket has its entry in the built
table. -/
theorem loadedEngineNeverStops : Obligations.LoadedEngineNeverStops := by
  intro s h hp hc
  obtain ⟨paired, pc, -, -⟩ := (phaseInv_of_loaded hp).mp h.phase
  by_cases hst : s.status = .running
  · have hr : Ready s := ⟨hp, hst, hc⟩
    rcases Nat.eq_or_lt_of_le pc with hpc | hpc
    · exact ⟨_, runEndsAtProgramLength s hr hpc⟩
    · obtain ⟨i, hi⟩ := (instrAt_isSome_iff s.cfg.codeMap s.prog s.pc).mpr hpc
      rw [hr.step_of_instrAt hi]
      refine exec_total h.ptr fun hb => (paired.complete s.pc).mpr ?_
      exact hb.imp (fun e => hi.trans (congrArg some e)) (fun e => hi.trans (congrArg some e))
  · exact ⟨s, step_of_not_running hc hp hst⟩

/-- Settles O29: in each of the two phases nothing issued and no run in progress leave nothing to do. -/
theorem noStepWithoutRun : Obligations.NoStepWithoutRun := by
  rintro s hc (⟨hp, hst⟩ | hp)
  · exact step_of_not_running hc hp hst
  · exact step_of_constructed hc hp

/-! ### Holds (R106, R174) -/

/-- A state that steps to itself does so for any number of steps. -/
theorem steps_of_step_self {s : State} (h : step s = .next s) (k : Nat) : steps k s = .next s := by
  induction k with
  | zero => rfl
  | succ k ih => rw [steps, h, andThen_next, ih]

section Hold
variable {s : State} (hr : Ready s) (hp : s.ptr < s.cfg.tapeLen)
include hr hp

/-- The answer of the host to an `IN` that held. -/
theorem step_answerIn (hi : instrAt s.cfg.codeMap s.prog s.pc = some .inp) (ha : s.inAnswers = []) (a : InAnswer) :
    ∃ t, step (s.answerIn a) = .next t ∧ t.inAnswers = [] ∧
      (t.pc = s.pc + 1 ∨ t.status = .fault .inputError s.pc) := by
  have hr' : Ready (s.answerIn a) := ⟨hr.phase, hr.status, hr.cmd⟩
  have hp' : (s.answerIn a).ptr < (s.answerIn a).cfg.tapeLen := hp
  have ha' : (s.answerIn a).inAnswers = [a] := by rw [State.answerIn, ha]; rfl
  rw [hr'.step_of_instrAt hi]
  cases a with
  | byte b => exact ⟨_, exec_inp_of_byte hp' ha', rfl, .inl rfl⟩
  | error => exact ⟨_, exec_inp_of_failure hp' ha' (.inl rfl), by simp, .inr (by simp [State.answerIn])⟩
  | endOfStream => exact ⟨_, exec_inp_of_failure hp' ha' (.inr rfl), by simp, .inr (by simp [State.answerIn])⟩

/-- The answer of the host to an `OUT` that held. -/
theorem step_answerOut (hi : instrAt s.cfg.codeMap s.prog s.pc = some .out) (ha : s.outAnswers = []) (a : OutAnswer) :
    ∃ t, step (s.answerOut a) = .next t ∧ t.outAnswers = [] ∧
      (t.pc = s.pc + 1 ∨ t.status = .fault .outputError s.pc) := by
  have hr' : Ready (s.answerOut a) := ⟨hr.phase, hr.status, hr.cmd⟩
  have hp' : (s.answerOut a).ptr < (s.answerOut a).cfg.tapeLen := hp
  have ha' : (s.answerOut a).outAnswers = [a] := by rw [State.answerOut, ha]; rfl
  rw [hr'.step_of_instrAt hi]
  cases a with
  | ok => exact ⟨_, exec_out_of_ok hp' ha', rfl, .inl rfl⟩
  | error => exact ⟨_, exec_out_of_error hp' ha', rfl, .inr rfl⟩

end Hold

/-- Settles O21: the held instruction steps to the same state, and its answer is taken by the instruction itself. -/
theorem heldRunStaysHeld : Obligations.HeldRunStaysHeld := by
  refine fun s hr hp => ⟨fun hi ha => ⟨steps_of_step_self ?_, step_answerIn hr hp hi ha⟩,
    fun hi ha => ⟨steps_of_step_self ?_, step_answerOut hr hp hi ha⟩⟩
  · exact (hr.step_of_instrAt hi).trans (exec_inp_of_nil hp ha)
  · exact (hr.step_of_instrAt hi).trans (exec_out_of_nil hp ha)

end Sys2Proof.Machine
end

section
/-! PROOFS. Run-length folding (spec/48_wrap_arith.md R158, spec/30_encoding.md R51): the arithmetic laws, the tape's
canonical form, and the effect of a repeatable instruction as an action of the counts. -/

namespace Sys2Proof.Machine

/-! ### The laws of the two rings (R154, R158) -/

/-- R154: the cell sum is the pointer sum on a ring of `2^W`. -/
theorem wauCellAdd_eq_wauPtrAdd (w : Width) (c n : Nat) : wauCellAdd w c n = wauPtrAdd w.modulus c n := rfl

theorem wauPtrAdd_wauPtrAdd (L p a b : Nat) : wauPtrAdd L (wauPtrAdd L p a) b = wauPtrAdd L p (a + b) := by
  rw [wauPtrAdd, wauPtrAdd, Nat.mod_add_mod, Nat.add_assoc, wauPtrAdd]

theorem wauPtrAdd_zero {L p : Nat} (hp : p < L) : wauPtrAdd L p 0 = p := Nat.mod_eq_of_lt hp

section Difference
variable {L : Nat} (hL : 1 ≤ L) (p a b : Nat)
include hL

/-- R158: two differences are one, as remainders of integers. -/
theorem wauPtrSub_wauPtrSub_cast :
    (wauPtrSub L (wauPtrSub L p a) b : Int) = ((p : Int) - a - b) % L := by
  rw [wauPtrSub_cast hL, wauPtrSub_cast hL, Int.emod_sub_emod]

theorem wauPtrSub_wauPtrSub : wauPtrSub L (wauPtrSub L p a) b = wauPtrSub L p (a + b) := by
  have h : (wauPtrSub L (wauPtrSub L p a) b : Int) = wauPtrSub L p (a + b) := by
    rw [wauPtrSub_wauPtrSub_cast hL, wauPtrSub_cast hL, Nat.cast_add, sub_sub]
  exact_mod_cast h

end Difference

/-! The same on the ring of `2^W`. -/

theorem wauCellAdd_wauCellAdd (w : Width) (c a b : Nat) :
    wauCellAdd w (wauCellAdd w c a) b = wauCellAdd w c (a + b) :=
  wauPtrAdd_wauPtrAdd w.modulus c a b

theorem wauCellSub_wauCellSub (w : Width) (c a b : Nat) :
    wauCellSub w (wauCellSub w c a) b = wauCellSub w c (a + b) :=
  wauPtrSub_wauPtrSub w.modulus_pos c a b

section InRange
variable {L p : Nat} (hp : p < L)
include hp

theorem wauPtrSub_zero : wauPtrSub L p 0 = p := by
  rw [wauPtrSub_eq_mod (Nat.one_le_of_lt hp), Nat.zero_mod, Nat.sub_zero, Nat.add_mod_right, Nat.mod_eq_of_lt hp]

/-- R158: a difference undoes the sum of the same count. -/
theorem wauPtrSub_wauPtrAdd (a : Nat) : wauPtrSub L (wauPtrAdd L p a) a = p := by
  have h : (wauPtrSub L (wauPtrAdd L p a) a : Int) = p :=
    calc (wauPtrSub L (wauPtrAdd L p a) a : Int) = (((p : Int) + a) % L - a) % L := by
          rw [wauPtrSub_cast (Nat.one_le_of_lt hp), wauPtrAdd]; push_cast; rfl
      _ = p % L := by rw [Int.emod_sub_emod, add_sub_cancel_right]
      _ = p := Int.emod_eq_of_lt (by omega) (by omega)
  exact_mod_cast h

/-- `k` moves by 1 are one move by `k`. -/
theorem iterate_wauPtrAdd_one (k : Nat) : (fun x => wauPtrAdd L x 1)^[k] p = wauPtrAdd L p k := by
  induction k with
  | zero => exact (wauPtrAdd_zero hp).symm
  | succ k ih => rw [Function.iterate_succ_apply', ih, wauPtrAdd_wauPtrAdd]

/-- R158: once round the ring. -/
theorem iterate_wauPtrAdd_one_self : (fun x => wauPtrAdd L x 1)^[L] p = p := by
  rw [iterate_wauPtrAdd_one hp, wauPtrAdd, Nat.add_mod_right, Nat.mod_eq_of_lt hp]

end InRange

/-- Settles O11: each law of the pointer, read on the ring of `L` and on the ring of `2^W`. -/
theorem wrapArithmeticLaws : Obligations.WrapArithmeticLaws :=
  ⟨fun w c a b => (wauCellAdd_wauCellAdd w c a b).trans (congrArg (· % w.modulus) (Nat.add_assoc c a b).symm),
    fun w c a b => wauPtrSub_wauPtrSub_cast w.modulus_pos c a b,
    fun _ _ a hc => wauPtrSub_wauPtrAdd hc a,
    fun L p a b => (wauPtrAdd_wauPtrAdd L p a b).trans (congrArg (· % L) (Nat.add_assoc p a b).symm),
    fun _ _ a hp => wauPtrSub_wauPtrAdd hp a,
    fun _ _ hc => iterate_wauPtrAdd_one_self hc,
    fun _ _ hp => iterate_wauPtrAdd_one_self hp⟩

/-! ### Two moves (R116) -/

/-- R150: the pointer sum is congruent to `p + n`. -/
theorem dvd_sub_wauPtrAdd (L p n : Nat) : (L : Int) ∣ (p : Int) + n - (wauPtrAdd L p n : Int) := by
  rw [wauPtrAdd, Int.natCast_emod, Nat.cast_add]
  exact Int.dvd_self_sub_emod

/-- A right move and a left move add up to their difference, modulo `L`. -/
theorem dvd_sub_wauPtrSub_wauPtrAdd {L : Nat} (hL : 1 ≤ L) (p a b : Nat) :
    (L : Int) ∣ (p : Int) + a - b - (wauPtrSub L (wauPtrAdd L p a) b : Int) := by
  have h := dvd_add (dvd_sub_wauPtrAdd L p a) (dvd_sub_wauPtrSub hL (wauPtrAdd L p a) b)
  rwa [show ∀ x y z w : Int, x - y + (y - z - w) = x - z - w by intros; ring] at h

/-- Settles O15: the pointer of the second move is that of one move by the sum, or congruent to the difference. -/
theorem movesCompose : Obligations.MovesCompose := by
  intro a b s hL
  refine ⟨?_, ⟨wauPtrSub s.cfg.tapeLen (wauPtrAdd s.cfg.tapeLen s.ptr a.toNat) b.toNat, ?_, wauPtrSub_lt hL _ _,
    dvd_sub_wauPtrSub_wauPtrAdd hL _ _ _⟩, ⟨wauPtrSub s.cfg.tapeLen s.ptr (a.toNat + b.toNat), ?_,
    wauPtrSub_lt hL _ _, ?_⟩⟩
  · rw [exec_mvr, andThen_next, exec_mvr, wauPtrAdd_wauPtrAdd]; rfl
  · rw [exec_mvr, andThen_next, exec_mvl]
  · rw [exec_mvl, andThen_next, exec_mvl, wauPtrSub_wauPtrSub hL]
  · exact_mod_cast dvd_sub_wauPtrSub hL s.ptr (a.toNat + b.toNat)

/-! ### The canonical form (log entry 17) -/

/-- A canonical tape, entry by entry. -/
theorem Memory.wf_cons {w : Width} {L : Nat} {c : Nat × Nat} {m : Memory} (h : Memory.wf w L (c :: m)) :
    Memory.wf w L m ∧ (∀ d ∈ m, c.1 < d.1) ∧ c.2 ≠ 0 := by
  obtain ⟨rising, range⟩ := h
  obtain ⟨below, rising⟩ := List.pairwise_cons.mp rising
  exact ⟨⟨rising, fun d hd => range d (List.mem_cons_of_mem _ hd)⟩, below, (range c List.mem_cons_self).2.1⟩

theorem Memory.read_cons_self (p v : Nat) (m : Memory) : Memory.read ((p, v) :: m) p = v := if_pos rfl

theorem Memory.read_cons_of_ne {p q : Nat} (h : p ≠ q) (v : Nat) (m : Memory) :
    Memory.read ((q, v) :: m) p = m.read p := if_neg h

/-- The first index of a tape that lists nothing below it reads 0 in every tape that starts later. -/
theorem Memory.read_cons_of_lt {p q : Nat} {v : Nat} {m : Memory} (h : p < q) (hm : ∀ c ∈ m, q < c.1) :
    Memory.read ((q, v) :: m) p = 0 := by
  rw [Memory.read_cons_of_ne (Nat.ne_of_lt h)]
  exact Memory.read_below fun c hc => h.trans (hm c hc)

/-- Canonical tapes that read alike are one list: their first indexes agree, then their values, then their tails. -/
theorem Memory.eq_of_read_eq {w : Width} {L : Nat} {a b : Memory} (ha : Memory.wf w L a) (hb : Memory.wf w L b)
    (h : ∀ p, a.read p = b.read p) : a = b := by
  induction a generalizing b with
  | nil =>
    rcases b with _ | ⟨⟨q, v⟩, b⟩
    · rfl
    · obtain ⟨-, -, hv⟩ := Memory.wf_cons hb
      exact absurd ((h q).trans (Memory.read_cons_self q v b)).symm hv
  | cons c a ih =>
    obtain ⟨p, u⟩ := c
    obtain ⟨ha', hpa, hu⟩ := Memory.wf_cons ha
    have hp := h p
    rw [Memory.read_cons_self] at hp
    rcases b with _ | ⟨⟨q, v⟩, b⟩
    · exact absurd hp hu
    · obtain ⟨hb', hqb, hv⟩ := Memory.wf_cons hb
      rcases Nat.lt_trichotomy p q with hlt | rfl | hgt
      · exact absurd (hp.trans (Memory.read_cons_of_lt hlt hqb)) hu
      · obtain rfl : u = v := hp.trans (Memory.read_cons_self p v b)
        have htail : ∀ r, Memory.read a r = Memory.read b r := fun r => by
          by_cases hr : r = p
          · subst hr
            rw [Memory.read_below hpa, Memory.read_below hqb]
          · have := h r
            rwa [Memory.read_cons_of_ne hr, Memory.read_cons_of_ne hr] at this
        rw [ih ha' hb' htail]
      · have hq := h q
        rw [Memory.read_cons_of_lt hgt hpa, Memory.read_cons_self] at hq
        exact absurd hq.symm hv

/-- Settles O38. -/
theorem canonicalTapesAreEqual : Obligations.CanonicalTapesAreEqual := fun _ _ _ _ => Memory.eq_of_read_eq

/-! ### The effect of a repeatable instruction, but for `pc` (R51) -/

/-- What `n` of a repeatable kind does to the pointer or to the cell. -/
def repEffect (k : RepKind) (n : Nat) (s : State) : State :=
  match k with
  | .mvr => s.setPtr (wauPtrAdd s.cfg.tapeLen s.ptr n)
  | .mvl => s.setPtr (wauPtrSub s.cfg.tapeLen s.ptr n)
  | .inc => s.memWrite (wauCellAdd s.cfg.width s.cell n)
  | .dec => s.memWrite (wauCellSub s.cfg.width s.cell n)

/-- The pointer is on a canonical tape. -/
structure OnTape (s : State) : Prop where
  ptr : s.ptr < s.cfg.tapeLen
  tape : Memory.wf s.cfg.width s.cfg.tapeLen s.tape

/-- A write of the value that the cell holds changes nothing. -/
theorem State.memWrite_cell {s : State} (h : OnTape s) : s.memWrite s.cell = s := by
  have hlt : s.cell < s.cfg.width.modulus := Memory.read_lt h.tape s.ptr
  have htape : (s.memWrite s.cell).tape = s.tape := by
    refine Memory.eq_of_read_eq (State.wf_memWrite h.tape h.ptr _) h.tape fun p => ?_
    rw [State.read_memWrite s hlt]
    split
    · next hp => rw [hp]; rfl
    · rfl
  rw [State.memWrite_tape] at htape
  rw [State.memWrite, htape]

/-- The later of two writes of one cell stands alone. -/
theorem State.memWrite_memWrite {s : State} (h : OnTape s) (u v : Nat) :
    (s.memWrite u).memWrite v = s.memWrite v := by
  simp only [State.memWrite, Memory.write_write h.tape.1]

theorem State.cell_memWrite (s : State) {v : Nat} (hv : v < s.cfg.width.modulus) : (s.memWrite v).cell = v :=
  (s.read_memWrite hv s.ptr).trans (if_pos rfl)

theorem exec_ofOp_rep {s : State} (hp : s.ptr < s.cfg.tapeLen) (k : RepKind) (n : Count) :
    exec (Instr.ofOp (.rep k) n) s = .next (repEffect k n.toNat s).advance := by
  cases k with
  | mvr => rfl
  | mvl => rfl
  | inc => exact execInc_of_lt hp n
  | dec => exact execDec_of_lt hp n

theorem repEffect_advance (k : RepKind) (n : Nat) (s : State) :
    repEffect k n s.advance = (repEffect k n s).advance := by
  cases k <;> rfl

theorem repEffect_pc (k : RepKind) (n : Nat) (s : State) : (repEffect k n s).pc = s.pc := by
  cases k <;> rfl

theorem OnTape.repEffect {s : State} (h : OnTape s) (k : RepKind) (n : Nat) : OnTape (repEffect k n s) := by
  have hL : 1 ≤ s.cfg.tapeLen := Nat.one_le_of_lt h.ptr
  cases k with
  | mvr => exact ⟨wauPtrAdd_lt hL _ _, h.tape⟩
  | mvl => exact ⟨wauPtrSub_lt hL _ _, h.tape⟩
  | inc => exact ⟨h.ptr, State.wf_memWrite h.tape h.ptr _⟩
  | dec => exact ⟨h.ptr, State.wf_memWrite h.tape h.ptr _⟩

/-- The count 0 does nothing. -/
theorem repEffect_zero {s : State} (h : OnTape s) (k : RepKind) : repEffect k 0 s = s := by
  have hcell : s.cell < s.cfg.width.modulus := Memory.read_lt h.tape s.ptr
  cases k with
  | mvr => rw [repEffect, wauPtrAdd_zero h.ptr]; rfl
  | mvl => rw [repEffect, wauPtrSub_zero h.ptr]; rfl
  | inc => rw [repEffect, wauCellAdd_eq_wauPtrAdd, wauPtrAdd_zero hcell, State.memWrite_cell h]
  | dec => rw [repEffect, wauCellSub_eq_wauPtrSub, wauPtrSub_zero hcell, State.memWrite_cell h]

/-- Two counts of one kind are their sum. -/
theorem repEffect_repEffect {s : State} (h : OnTape s) (k : RepKind) (a b : Nat) :
    repEffect k b (repEffect k a s) = repEffect k (a + b) s := by
  cases k with
  | mvr =>
    simp only [repEffect, State.setPtr_cfg, State.setPtr_ptr, wauPtrAdd_wauPtrAdd]; rfl
  | mvl =>
    simp only [repEffect, State.setPtr_cfg, State.setPtr_ptr, wauPtrSub_wauPtrSub (Nat.one_le_of_lt h.ptr)]; rfl
  | inc =>
    show (s.memWrite _).memWrite (wauCellAdd s.cfg.width (s.memWrite _).cell b) = s.memWrite _
    rw [State.cell_memWrite s (wauCellAdd_lt _ _ _), State.memWrite_memWrite h, wauCellAdd_wauCellAdd]
  | dec =>
    show (s.memWrite _).memWrite (wauCellSub s.cfg.width (s.memWrite _).cell b) = s.memWrite _
    rw [State.cell_memWrite s (wauCellSub_lt _ _ _), State.memWrite_memWrite h, wauCellSub_wauCellSub]

/-- `n` instructions of count 1. -/
theorem execTimes_one {s : State} (h : OnTape s) (k : RepKind) (n : Nat) :
    execTimes (Instr.ofOp (.rep k) 1) n s = .next { repEffect k n s with pc := s.pc + n } := by
  induction n generalizing s with
  | zero => rw [repEffect_zero h]; rfl
  | succ n ih =>
    have h1 : OnTape (repEffect k 1 s).advance := ⟨(h.repEffect k 1).ptr, (h.repEffect k 1).tape⟩
    rw [execTimes, exec_ofOp_rep h.ptr]
    show execTimes _ n (repEffect k 1 s).advance = _
    rw [ih h1, repEffect_advance, repEffect_repEffect h, State.advance_pc, repEffect_pc, Nat.add_comm 1 n,
      Nat.add_assoc, Nat.add_comm 1 n]
    rfl

/-- Settles O18: one instruction of count `n` and `n` of count 1 both have the effect of the count `n`. -/
theorem runLengthIsRepetition : Obligations.RunLengthIsRepetition := by
  intro k n s _ hp ht _
  have h : OnTape s := ⟨hp, ht⟩
  refine ⟨_, _, exec_ofOp_rep hp k n, execTimes_one h k n.toNat, ?_, rfl⟩
  rw [State.advance, repEffect_pc]

end Sys2Proof.Machine
end

section
/-! PROOFS. A matched pair of brackets pass by pass, the states the spec rules out, and the independence of the meanings
from the code map (spec/47_loop.md, spec/30_encoding.md). -/

namespace Sys2Proof.Machine

/-! ### A matched pair (R138, R139) -/

section Pair
variable {s : State} {a b : Nat} (hr : Ready s) (hp : s.ptr < s.cfg.tapeLen)
include hr hp

/-- At the loop-open, a cell that is not zero enters the body. -/
theorem step_open_of_ne_zero (ho : OpenAt s.cfg.codeMap s.prog s.pc) (hz : s.cell ≠ 0) : step s = .next s.advance :=
  (hr.step_of_instrAt ho).trans (exec_lopen_of_ne_zero hp hz)

/-- At the loop-open, a zero cell leaves for the byte after the pair. -/
theorem step_open_of_zero (ho : OpenAt s.cfg.codeMap s.prog s.pc) (hj : s.jumpEntry = some b) (hz : s.cell = 0) :
    step s = .next (s.jump (b + 1)) :=
  (hr.step_of_instrAt ho).trans (exec_lopen_of_zero hp hz hj)

/-- At the loop-close, a zero cell leaves for the next byte. -/
theorem step_close_of_zero (hc : CloseAt s.cfg.codeMap s.prog s.pc) (hz : s.cell = 0) : step s = .next s.advance :=
  (hr.step_of_instrAt hc).trans (exec_lclose_of_zero hp hz)

/-- At the loop-close, a cell that is not zero goes back to the loop-open. -/
theorem step_close_of_ne_zero (hc : CloseAt s.cfg.codeMap s.prog s.pc) (hj : s.jumpEntry = some a) (hz : s.cell ≠ 0) :
    step s = .next (s.jump a) :=
  (hr.step_of_instrAt hc).trans (exec_lclose_of_ne_zero hp hz hj)

/-- From the loop-close with a cell that is not zero, the loop-open tests the same cell and enters the body. -/
theorem steps_two_close_of_ne_zero (hc : CloseAt s.cfg.codeMap s.prog s.pc) (hj : s.jumpEntry = some a)
    (ho : OpenAt s.cfg.codeMap s.prog a) (hz : s.cell ≠ 0) : steps 2 s = .next (s.jump a).advance := by
  have hr' : Ready (s.jump a) := ⟨hr.phase, hr.status, hr.cmd⟩
  rw [steps, step_close_of_ne_zero hr hp hc hj hz, andThen_next, steps_one]
  exact step_open_of_ne_zero hr' hp ho hz

end Pair

/-- Settles O24: the built table pairs `a` with a loop-close at `b`, and `b` with `a`. -/
theorem loopTestsAtEachPass : Obligations.LoopTestsAtEachPass := by
  intro s a b hr h ho hab
  obtain ⟨paired, -, -, -⟩ := (phaseInv_of_loaded hr.phase).mp h.phase
  obtain ⟨-, hc⟩ := paired.opens a b hab ho
  have hba := paired.symmetric a b hab
  refine ⟨?_, ?_, ?_, ?_⟩
  · rintro rfl hz; exact step_open_of_ne_zero hr h.ptr ho hz
  · rintro rfl hz; exact step_open_of_zero hr h.ptr ho hab hz
  · rintro rfl hz; exact step_close_of_zero hr h.ptr hc hz
  · rintro rfl hz; exact steps_two_close_of_ne_zero hr h.ptr hc hba ho hz

/-! ### The states the spec rules out (log entry 16) -/

/-- Every instruction but the two moves reads the cell first. -/
theorem exec_of_off_tape {i : Instr} {s : State} (hp : s.cfg.tapeLen ≤ s.ptr) (hr : ∀ n, i ≠ .mvr n)
    (hl : ∀ n, i ≠ .mvl n) : exec i s = .fault (.tapeIndexOutOfRange s.ptr) := by
  cases i with
  | out | inp | lopen | lclose | inc _ | dec _ => exact if_neg (Nat.not_lt.mpr hp)
  | mvr n => exact absurd rfl (hr n)
  | mvl n => exact absurd rfl (hl n)

section NoEntry
variable {s : State} (hp : s.ptr < s.cfg.tapeLen) (hj : s.jumpEntry = none)
include hp hj

theorem exec_lopen_of_noEntry (hz : s.cell = 0) : exec .lopen s = .refused (.noJumpEntry s.pc) := by
  rw [exec, execLopen, State.onCell_of_lt hp, if_pos ((wauIsZero_iff s.cell).mpr hz), hj]

theorem exec_lclose_of_noEntry (hz : s.cell ≠ 0) : exec .lclose s = .refused (.noJumpEntry s.pc) := by
  rw [exec, execLclose, State.onCell_of_lt hp, if_neg (mt (wauIsZero_iff s.cell).mp hz), hj]

end NoEntry

/-- Settles O25. -/
theorem unreachableStatesStopByName : Obligations.UnreachableStatesStopByName :=
  ⟨fun _ _ => exec_of_off_tape, fun _ hp hj => ⟨exec_lopen_of_noEntry hp hj, exec_lclose_of_noEntry hp hj⟩⟩

/-! ### Another code map (R47) -/

section OtherMap
variable (s : State) (m : CodeMap)

theorem State.failedInputCell_withCodeMap :
    (s.withCodeMap m).failedInputCell = s.failedInputCell.withCodeMap m := by
  cases h : s.cfg.inputFailCell with
  | unchanged => rw [s.failedInputCell_unchanged h, (s.withCodeMap m).failedInputCell_unchanged h]
  | zeroed => rw [s.failedInputCell_zeroed h, (s.withCodeMap m).failedInputCell_zeroed h]; rfl

/-- An outcome with the code map `m` in place of the old one. -/
def outcomeWithCodeMap (o : Result) : Result := andThen o fun t => .next (t.withCodeMap m)

variable {s} (hp : s.ptr < s.cfg.tapeLen)
include hp

theorem exec_out_withCodeMap : exec .out (s.withCodeMap m) = outcomeWithCodeMap m (exec .out s) := by
  have hp' : (s.withCodeMap m).ptr < (s.withCodeMap m).cfg.tapeLen := hp
  rcases ha : s.outAnswers with _ | ⟨_ | _, as⟩
  · rw [exec_out_of_nil hp ha, exec_out_of_nil hp' ha]; rfl
  · rw [exec_out_of_ok hp ha, exec_out_of_ok hp' ha]; rfl
  · rw [exec_out_of_error hp ha, exec_out_of_error hp' ha]; rfl

theorem exec_inp_failure_withCodeMap {a : InAnswer} {as : List InAnswer} (h : s.inAnswers = a :: as)
    (ha : a = .error ∨ a = .endOfStream) :
    exec .inp (s.withCodeMap m) = outcomeWithCodeMap m (exec .inp s) := by
  rw [exec_inp_of_failure hp h ha, exec_inp_of_failure (s := s.withCodeMap m) hp h ha]
  exact congrArg (fun t : State => Host.Outcome.next (t.raise .inputError))
    (State.failedInputCell_withCodeMap { s with inAnswers := as } m)

theorem exec_inp_withCodeMap : exec .inp (s.withCodeMap m) = outcomeWithCodeMap m (exec .inp s) := by
  have hp' : (s.withCodeMap m).ptr < (s.withCodeMap m).cfg.tapeLen := hp
  rcases ha : s.inAnswers with _ | ⟨b | _ | _, as⟩
  · rw [exec_inp_of_nil hp ha, exec_inp_of_nil hp' ha]; rfl
  · rw [exec_inp_of_byte hp ha, exec_inp_of_byte hp' ha]; rfl
  · exact exec_inp_failure_withCodeMap m hp ha (.inl rfl)
  · exact exec_inp_failure_withCodeMap m hp ha (.inr rfl)

theorem exec_lopen_withCodeMap : exec .lopen (s.withCodeMap m) = outcomeWithCodeMap m (exec .lopen s) := by
  have hp' : (s.withCodeMap m).ptr < (s.withCodeMap m).cfg.tapeLen := hp
  by_cases hz : s.cell = 0
  · rcases hj : s.jumpEntry with _ | j
    · rw [exec_lopen_of_noEntry hp hj hz, exec_lopen_of_noEntry hp' hj hz]; rfl
    · rw [exec_lopen_of_zero hp hz hj, exec_lopen_of_zero hp' hz hj]; rfl
  · rw [exec_lopen_of_ne_zero hp hz, exec_lopen_of_ne_zero hp' hz]; rfl

theorem exec_lclose_withCodeMap : exec .lclose (s.withCodeMap m) = outcomeWithCodeMap m (exec .lclose s) := by
  have hp' : (s.withCodeMap m).ptr < (s.withCodeMap m).cfg.tapeLen := hp
  by_cases hz : s.cell = 0
  · rw [exec_lclose_of_zero hp hz, exec_lclose_of_zero hp' hz]; rfl
  · rcases hj : s.jumpEntry with _ | j
    · rw [exec_lclose_of_noEntry hp hj hz, exec_lclose_of_noEntry hp' hj hz]; rfl
    · rw [exec_lclose_of_ne_zero hp hz hj, exec_lclose_of_ne_zero hp' hz hj]; rfl

theorem exec_ofOp_rep_withCodeMap (k : RepKind) (n : Count) :
    exec (Instr.ofOp (.rep k) n) (s.withCodeMap m) = outcomeWithCodeMap m (exec (Instr.ofOp (.rep k) n) s) := by
  rw [exec_ofOp_rep hp, exec_ofOp_rep (s := s.withCodeMap m) hp]
  cases k <;> rfl

end OtherMap

/-- Settles O26: on the tape instruction by instruction; off it, a move does not ask for the cell, and every other
instruction faults whatever the map. -/
theorem meaningsIgnoreCodeMap : Obligations.MeaningsIgnoreCodeMap := by
  intro i s m
  rcases lt_or_ge s.ptr s.cfg.tapeLen with hp | hp
  · cases i with
    | out => exact exec_out_withCodeMap m hp
    | inp => exact exec_inp_withCodeMap m hp
    | lopen => exact exec_lopen_withCodeMap m hp
    | lclose => exact exec_lclose_withCodeMap m hp
    | mvr n => exact exec_ofOp_rep_withCodeMap m hp .mvr n
    | mvl n => exact exec_ofOp_rep_withCodeMap m hp .mvl n
    | inc n => exact exec_ofOp_rep_withCodeMap m hp .inc n
    | dec n => exact exec_ofOp_rep_withCodeMap m hp .dec n
  · by_cases hmove : ∃ n, i = .mvr n ∨ i = .mvl n
    · obtain ⟨n, rfl | rfl⟩ := hmove <;> rfl
    · have hr : ∀ n, i ≠ .mvr n := fun n e => hmove ⟨n, .inl e⟩
      have hl : ∀ n, i ≠ .mvl n := fun n e => hmove ⟨n, .inr e⟩
      rw [exec_of_off_tape hp hr hl, exec_of_off_tape (s := s.withCodeMap m) hp hr hl]; rfl

end Sys2Proof.Machine
end

section
/-! PROOFS. The host's operations (spec/70_reset_and_hazards.md, spec/60_exceptions.md): construction, reset, run,
inspection, and the operations out of order. -/

namespace Sys2Proof.Machine

/-! ### Construction (R185) -/

theorem widthOfBits_of_illegal {bits : Nat} (h : bits ≠ 8 ∧ bits ≠ 16 ∧ bits ≠ 32 ∧ bits ≠ 64) :
    widthOfBits bits = none := by
  obtain ⟨h8, h16, h32, h64⟩ := h
  rw [widthOfBits, if_neg h8, if_neg h16, if_neg h32, if_neg h64]

theorem widthOfBits_of_legal {bits : Nat} (h : bits = 8 ∨ bits = 16 ∨ bits = 32 ∨ bits = 64) :
    ∃ w, widthOfBits bits = some w ∧ w.bits = bits := by
  rcases h with rfl | rfl | rfl | rfl
  · exact ⟨.w8, rfl, rfl⟩
  · exact ⟨.w16, rfl, rfl⟩
  · exact ⟨.w32, rfl, rfl⟩
  · exact ⟨.w64, rfl, rfl⟩

section Construct
variable {bits L : Nat} {m : CodeMap} {w : Width} (f : InputFailCell) (pMax : Nat)

theorem construct_of_width_none (h : widthOfBits bits = none) :
    construct bits L m f pMax = .fault (.invalidCellWidth bits) := by
  rw [construct, h]

variable (hw : widthOfBits bits = some w)
include hw

theorem construct_of_length_zero : construct bits 0 m f pMax = .refused .zeroTapeLength := by
  rw [construct, hw]
  exact if_pos rfl

theorem construct_of_map_not_wf (hL : 1 ≤ L) (hm : ¬m.wf) :
    construct bits L m f pMax = .refused .codeMapNotBijective := by
  rw [construct, hw]
  exact (if_neg (Nat.ne_of_gt hL)).trans (if_neg hm)

theorem construct_of_wf (hL : 1 ≤ L) (hm : m.wf) :
    construct bits L m f pMax = .next (State.initial ⟨w, L, m, f, pMax⟩) := by
  rw [construct, hw]
  exact (if_neg (Nat.ne_of_gt hL)).trans (if_pos hm)

end Construct

/-- Settles O39: the three checks in order, then the state of construction, which meets the invariant. -/
theorem constructionChecksItsArguments : Obligations.ConstructionChecksItsArguments := by
  intro bits L m f pMax
  refine ⟨fun h => construct_of_width_none f pMax (widthOfBits_of_illegal h), fun h => ?_⟩
  obtain ⟨w, hw, hbits⟩ := widthOfBits_of_legal h
  refine ⟨?_, construct_of_map_not_wf f pMax hw, fun hL hm => ?_⟩
  · rintro rfl
    exact construct_of_length_zero f pMax hw
  · exact ⟨_, construct_of_wf f pMax hw hL hm, hbits, rfl, rfl, rfl, rfl, fun _ => rfl, rfl, rfl, rfl, rfl, rfl,
      State.Inv.initial ⟨hL, hm⟩⟩

/-! ### An operation by the phase at which it is issued (R173, R187) -/

section Taken
variable {s : State} {op : HostOp} (hc : s.cmd = some op)
include hc

theorem step_of_cmd_running (hst : s.status = .running) : step s = .refused .operationDuringRun :=
  (step_of_cmd hc).trans (takeCommand_of_running hst)

variable (hst : s.status ≠ .running)
include hst

theorem step_of_cmd_constructed (hp : s.phase = .constructed) (h : op = .run ∨ op = .reset) :
    step s = .refused .notLoaded := by
  rw [step_of_cmd hc]
  rcases h with rfl | rfl <;> simp [takeCommand, hst, hp]

theorem step_of_cmd_loading (hp : (∃ r, s.phase = .compiling r) ∨ ∃ j, s.phase = .pairing j) :
    step s = .refused .operationDuringLoad := by
  rw [step_of_cmd hc]
  rcases hp with ⟨r, hp⟩ | ⟨j, hp⟩ <;> simp [takeCommand, hst, hp]

end Taken

section Operation
variable {s : State} (hst : s.status ≠ .running)
include hst

section Load
variable {src : List Token} {cap : Nat} {later : List Nat} (hc : s.cmd = some (.load src cap later))
include hc

theorem step_of_second_load (hp : s.phase = .loaded) : step s = .refused .alreadyLoaded := by
  rw [step_of_cmd hc]
  simp [takeCommand, hst, hp]

theorem step_of_first_load (hp : s.phase = .constructed) : step s = beginLoad src cap later s := by
  rw [step_of_cmd hc]
  simp [takeCommand, hst, hp]

end Load

variable (hp : s.phase = .loaded)
include hp

theorem step_of_run (hc : s.cmd = some .run) : step s = .next (startRun s) := by
  rw [step_of_cmd hc]
  simp [takeCommand, hst, hp]

theorem step_of_reset (hc : s.cmd = some .reset) : step s = .next (resetVm s) := by
  rw [step_of_cmd hc]
  simp [takeCommand, hst, hp]

end Operation

/-- Settles O40. -/
theorem resetClearsTapeAndPointer : Obligations.ResetClearsTapeAndPointer :=
  fun _ hp hc => ⟨fun hst => ⟨_, step_of_reset hst hp hc, fun _ => rfl, rfl⟩, step_of_cmd_running hc⟩

/-- Settles O41: of the ways to a next state only one takes an issued run. -/
theorem runStartsAtEntry : Obligations.RunStartsAtEntry := by
  intro s hc
  refine ⟨fun hp hst => step_of_run hst hp hc, fun t ht => ?_⟩
  rw [step_of_cmd hc] at ht
  obtain ⟨hst, ⟨_, _, _, _, hop, _⟩ | ⟨hp, _⟩ | ⟨hp, _⟩⟩ := takeCommand_next ht
  · cases hop
  · exact ⟨hp, hst⟩
  · exact ⟨hp, hst⟩

/-- Settles O42: by the status and the phase at which the operation is taken. -/
theorem operationsOutOfOrderRefused : Obligations.OperationsOutOfOrderRefused := by
  intro s op hc
  refine ⟨step_of_cmd_running hc, step_of_cmd_constructed hc, step_of_cmd_loading hc, ?_⟩
  rintro src cap later rfl hst
  refine ⟨step_of_second_load hst hc, fun hp hcap => ?_⟩
  rw [step_of_first_load hst hc hp]
  exact if_pos hcap

/-- Settles O43: by the phase. -/
theorem inspectionReadsTapeAndPointer : Obligations.InspectionReadsTapeAndPointer := by
  intro s
  constructor
  · rintro (hp | hp) <;> rw [State.inspect, hp]
  · rintro (⟨r, hp⟩ | ⟨j, hp⟩) <;> rw [State.inspect, hp]

end Sys2Proof.Machine
end

section
/-! PROOFS. The Jump-Pairing Unit (spec/42_jump_pairing.md): each scan index, and the whole pass with the bracket depth
kept along it. -/

namespace Sys2Proof.Machine

/-! ### One scan index (R91 to R94) -/

section Index
variable {s : State} {j : JpuState} (hc : s.cmd = none) (hp : s.phase = .pairing j)
include hc hp

theorem step_open (ho : OpenAt s.cfg.codeMap s.prog j.scan) :
    step s = .next (scanNext (j.scan :: j.stack) j s) :=
  (step_of_pairing hc hp).trans (jpuStep_open ho)

theorem step_close_empty (hcl : CloseAt s.cfg.codeMap s.prog j.scan) (hst : j.stack = []) :
    step s = .fault (.unmatchedLoopClose j.scan) :=
  (step_of_pairing hc hp).trans ((jpuStep_close hcl).trans (pairClose_of_nil hst))

theorem step_close {o : Nat} {st : List Nat} (hcl : CloseAt s.cfg.codeMap s.prog j.scan) (hst : j.stack = o :: st) :
    step s = .next (scanNext st j (recordPair o j.scan s)) :=
  (step_of_pairing hc hp).trans ((jpuStep_close hcl).trans (pairClose_of_cons hst))

theorem step_other (hl : j.scan < s.prog.length) (ho : ¬OpenAt s.cfg.codeMap s.prog j.scan)
    (hcl : ¬CloseAt s.cfg.codeMap s.prog j.scan) : step s = .next (scanNext j.stack j s) :=
  (step_of_pairing hc hp).trans (jpuStep_other hl ho hcl)

theorem step_end_empty (hl : s.prog.length ≤ j.scan) (hst : j.stack = []) : step s = .next (loadDone s) :=
  (step_of_pairing hc hp).trans ((jpuStep_end ((instrAt_none_iff _ _ _).mpr hl)).trans (pairEnd_of_nil hst))

theorem step_end_open {o : Nat} {st : List Nat} (hl : s.prog.length ≤ j.scan) (hst : j.stack = o :: st) :
    step s = .fault (.unmatchedLoopOpen o) :=
  (step_of_pairing hc hp).trans ((jpuStep_end ((instrAt_none_iff _ _ _).mpr hl)).trans (pairEnd_of_cons hst))

end Index

/-- Settles O52: by the byte at the scan index, and by the stack at a loop-close and at the end. -/
theorem pairingPassStep : Obligations.PairingPassStep := by
  intro s j hc hp
  refine ⟨step_open hc hp, fun hcl => ⟨step_close_empty hc hp hcl, fun o st hst ho => ?_⟩, step_other hc hp,
    fun hl => ⟨step_end_empty hc hp hl, fun i st => step_end_open hc hp hl⟩⟩
  refine ⟨_, step_close hc hp hcl hst, ?_, ?_, fun i hio hin => ?_, rfl⟩
  · exact (lookup_pair _ _ _ _).trans ((if_neg ho).trans (if_pos rfl))
  · exact (lookup_pair _ _ _ _).trans (if_pos rfl)
  · exact (lookup_pair _ _ _ _).trans ((if_neg hin).trans (if_neg hio))

/-! ### The depth along the pass (R92, R94) -/

section Depth
variable {m : CodeMap} {prog : List Byte} {n : Nat}

theorem depth_succ_of_open (h : OpenAt m prog n) : depth m prog (n + 1) = depth m prog n + 1 := depth_succ h

theorem depth_succ_of_close (h : CloseAt m prog n) : depth m prog (n + 1) = depth m prog n - 1 := depth_succ h

theorem depth_succ_of_other (hl : n < prog.length) (ho : ¬OpenAt m prog n) (hc : ¬CloseAt m prog n) :
    depth m prog (n + 1) = depth m prog n := by
  obtain ⟨i, hi⟩ := (instrAt_isSome_iff m prog n).mpr hl
  have hw : bracketWeight i = 0 := by
    cases i with
    | lopen => exact absurd hi ho
    | lclose => exact absurd hi hc
    | out | inp | mvr _ | mvl _ | inc _ | dec _ => rfl
  rw [depth_succ hi, hw, add_zero]

/-- What the pass has built when `n` bytes are scanned, with the bracket depth of each open loop and of each pair. -/
structure ScannedTo (m : CodeMap) (prog : List Byte) (jt : Table) (stack : List Nat) (n : Nat) : Prop where
  built : PairedUpTo m prog jt stack n
  /-- As many loops are open as the depth says. -/
  length : depth m prog n = stack.length
  /-- The depth of an open loop is the number of loops open around it. -/
  level : ∀ o st, o :: st <:+ stack → depth m prog o = st.length
  /-- Since an open loop was met, the depth has not come back to its own. -/
  above : ∀ o ∈ stack, ∀ k, o < k → k ≤ n → depth m prog o < depth m prog k
  /-- After a pair, the depth is as it was before it. -/
  paired : ∀ a b, Table.lookup jt a = some b → a < b → depth m prog (b + 1) = depth m prog a

variable {jt : Table} {stack : List Nat}

theorem ScannedTo.start (m : CodeMap) (prog : List Byte) : ScannedTo m prog [] [] 0 where
  built := .start m prog
  length := rfl
  level _ _ h := absurd (List.suffix_nil.mp h) (List.cons_ne_nil _ _)
  above _ h := absurd h List.not_mem_nil
  paired _ _ h := nomatch h

/-- The depth of an open loop is below that of the scan index. -/
theorem ScannedTo.lt_depth (h : ScannedTo m prog jt stack n) {o : Nat} (ho : o ∈ stack) :
    depth m prog o < depth m prog n :=
  h.above o ho n (h.built.stackOpen o ho).1 le_rfl

theorem ScannedTo.push (h : ScannedTo m prog jt stack n) (ho : OpenAt m prog n) :
    ScannedTo m prog jt (n :: stack) (n + 1) where
  built := h.built.push ho
  length := by rw [depth_succ_of_open ho, h.length, List.length_cons, Nat.cast_succ]
  level o st hs := by
    rcases List.suffix_cons_iff.mp hs with heq | hs
    · cases heq; exact h.length
    · exact h.level o st hs
  above o hm k hk hkn := by
    have hn := depth_succ_of_open ho
    rcases Nat.le_add_one_iff.mp hkn with hkn | rfl
    · rcases List.mem_cons.mp hm with rfl | hm
      · omega
      · exact h.above o hm k hk hkn
    · rcases List.mem_cons.mp hm with rfl | hm
      · omega
      · have := h.lt_depth hm
        omega
  paired := h.paired

theorem ScannedTo.skip (h : ScannedTo m prog jt stack n) (hl : n < prog.length) (ho : ¬OpenAt m prog n)
    (hc : ¬CloseAt m prog n) : ScannedTo m prog jt stack (n + 1) where
  built := h.built.skip hl ho hc
  length := (depth_succ_of_other hl ho hc).trans h.length
  level := h.level
  above o hm k hk hkn := by
    rcases Nat.le_add_one_iff.mp hkn with hkn | rfl
    · exact h.above o hm k hk hkn
    · exact (h.lt_depth hm).trans_eq (depth_succ_of_other hl ho hc).symm
  paired := h.paired

/-- The loop-close at the scan index brings the depth back to that of the loop-open on top of the stack. -/
theorem ScannedTo.depth_close {o : Nat} (h : ScannedTo m prog jt (o :: stack) n) (hc : CloseAt m prog n) :
    depth m prog (n + 1) = depth m prog o := by
  rw [depth_succ_of_close hc, h.length, h.level o stack List.suffix_rfl, List.length_cons, Nat.cast_succ,
    add_sub_cancel_right]

theorem ScannedTo.pair {o : Nat} (h : ScannedTo m prog jt (o :: stack) n) (hc : CloseAt m prog n) :
    ScannedTo m prog (Table.set (Table.set jt o n) n o) stack (n + 1) where
  built := h.built.pair hc
  length := (h.depth_close hc).trans (h.level o stack List.suffix_rfl)
  level o' st hs := h.level o' st (hs.trans (List.suffix_cons o stack))
  above o' hm k hk hkn := by
    rcases Nat.le_add_one_iff.mp hkn with hkn | rfl
    · exact h.above o' (List.mem_cons_of_mem o hm) k hk hkn
    · have hlt : o' < o := (List.pairwise_cons.mp h.built.stackOrder).1 o' hm
      have hon : o < n := (h.built.stackOpen o List.mem_cons_self).1
      exact (h.above o' (List.mem_cons_of_mem o hm) o hlt hon.le).trans_eq (h.depth_close hc).symm
  paired a b hab hlt := by
    have hon : o < n := (h.built.stackOpen o List.mem_cons_self).1
    rw [lookup_pair] at hab
    split at hab
    · cases hab; omega
    · split at hab
      · next ha => cases hab; exact ha ▸ h.depth_close hc
      · exact h.paired a b hab hlt

/-- R94: at the end of the pass, the loops still open are the loop-opens that are never closed, for a paired one comes
back to its own depth. -/
theorem ScannedTo.mem_stack_iff (h : ScannedTo m prog jt stack prog.length) (k : Nat) :
    k ∈ stack ↔ UnmatchedOpen m prog k := by
  constructor
  · exact fun hk => ⟨(h.built.stackOpen k hk).2, h.above k hk⟩
  · rintro ⟨ho, habove⟩
    by_contra hk
    obtain ⟨b, hb⟩ := (h.built.complete k).mpr ⟨ho.lt, .inr ⟨ho, hk⟩⟩
    obtain ⟨hlt, hcl⟩ := h.built.opens k b hb ho
    have hback := h.paired k b hb hlt
    have := habove (b + 1) (by omega) hcl.lt
    omega

/-- The top of the stack is the last of them. -/
theorem ScannedTo.lastUnmatchedOpen {o : Nat} (h : ScannedTo m prog jt (o :: stack) prog.length) :
    LastUnmatchedOpen m prog o where
  unmatched := (h.mem_stack_iff o).mp List.mem_cons_self
  last k hk := by
    rcases List.mem_cons.mp ((h.mem_stack_iff k).mpr hk) with rfl | hm
    · exact le_rfl
    · exact ((List.pairwise_cons.mp h.built.stackOrder).1 k hm).le

end Depth

/-! ### The whole pass (R95) -/

/-- `s` in its pass, with `n` bytes scanned. -/
def State.inPass (s : State) (jt : Table) (stack : List Nat) (n : Nat) : State :=
  { s with jt := jt, phase := .pairing { stack := stack, scan := n } }

section Pass
variable {s : State} (hc : s.cmd = none)
include hc

/-- One more byte, where it is no loop-close with nothing open. -/
theorem step_inPass {jt : Table} {stack : List Nat} {n : Nat} (h : ScannedTo s.cfg.codeMap s.prog jt stack n)
    (hl : n < s.prog.length) (hd : 0 ≤ depth s.cfg.codeMap s.prog (n + 1)) :
    ∃ jt' stack', step (s.inPass jt stack n) = .next (s.inPass jt' stack' (n + 1)) ∧
      ScannedTo s.cfg.codeMap s.prog jt' stack' (n + 1) := by
  have hc' : (s.inPass jt stack n).cmd = none := hc
  by_cases ho : OpenAt s.cfg.codeMap s.prog n
  · exact ⟨_, _, step_open hc' rfl ho, h.push ho⟩
  by_cases hcl : CloseAt s.cfg.codeMap s.prog n
  · cases stack with
    | nil =>
      rw [depth_succ_of_close hcl, h.length] at hd
      exact absurd hd (by decide)
    | cons o st => exact ⟨_, _, step_close hc' rfl hcl rfl, h.pair hcl⟩
  · exact ⟨_, _, step_other hc' rfl hl ho hcl, h.skip hl ho hcl⟩

variable (hp : s.phase = .pairing { stack := [], scan := 0 }) (hj : s.jt = [])
include hp hj

/-- `n` bytes of the pass, as long as no loop-close is unmatched. -/
theorem steps_inPass (n : Nat) (hl : n ≤ s.prog.length) (hd : ∀ k ≤ n, 0 ≤ depth s.cfg.codeMap s.prog k) :
    ∃ jt stack, steps n s = .next (s.inPass jt stack n) ∧ ScannedTo s.cfg.codeMap s.prog jt stack n := by
  induction n with
  | zero =>
    refine ⟨[], [], ?_, .start _ _⟩
    rw [State.inPass, ← hp, ← hj]
    rfl
  | succ n ih =>
    obtain ⟨jt, stack, hs, h⟩ := ih (by omega) fun k hk => hd k (by omega)
    obtain ⟨jt', stack', hs', h'⟩ := step_inPass hc h hl (hd (n + 1) le_rfl)
    exact ⟨jt', stack', by rw [steps_add, hs, andThen_next, steps_one, hs'], h'⟩

end Pass

/-- Settles O53: the depth at the end leaves nothing open, so the table is built and the load is done. -/
theorem balancedProgramIsPaired : Obligations.BalancedProgramIsPaired := by
  intro s hc hp hj hbal
  obtain ⟨jt, stack, hs, h⟩ := steps_inPass hc hp hj s.prog.length le_rfl hbal.closes
  obtain rfl : stack = [] := List.length_eq_zero_iff.mp (by exact_mod_cast h.length.symm.trans hbal.opens)
  refine ⟨loadDone (s.inPass jt [] s.prog.length), ?_, h.built.finish, rfl⟩
  rw [steps_add, hs, andThen_next, steps_one]
  exact step_end_empty (j := ⟨[], s.prog.length⟩) hc rfl le_rfl rfl

/-- Settles O54: up to `i` the pass goes on, and the depth at `i` leaves nothing to pop. -/
theorem unmatchedCloseRejects : Obligations.UnmatchedCloseRejects := by
  intro s i hc hp hj hi
  obtain ⟨jt, stack, hs, h⟩ := steps_inPass hc hp hj i hi.close.lt.le hi.first
  obtain rfl : stack = [] := List.length_eq_zero_iff.mp (by exact_mod_cast h.length.symm.trans hi.nothingOpen)
  exact ⟨_, hs, step_close_empty (j := ⟨[], i⟩) hc rfl hi.close rfl⟩

/-- Settles O55: the depth at the end leaves a loop open, and the top of the stack is the last one never closed. -/
theorem unmatchedOpenRejects : Obligations.UnmatchedOpenRejects := by
  intro s hc hp hj hno hdepth
  obtain ⟨jt, stack, hs, h⟩ := steps_inPass hc hp hj s.prog.length le_rfl hno
  cases stack with
  | nil => exact absurd h.length hdepth
  | cons o st =>
    have hc' : (s.inPass jt (o :: st) s.prog.length).cmd = none := hc
    exact ⟨o, _, h.lastUnmatchedOpen, hs, step_end_open hc' rfl le_rfl rfl⟩

end Sys2Proof.Machine
end

section
/-! PROOFS. The run-length expansion (spec/30_encoding.md R54): the runs of a token sequence and the instructions of a run,
taken from the front one instruction at a time. -/

namespace Sys2Proof.Machine

/-! ### The runs of a token sequence -/

/-- One more token in front of the runs. -/
def consRun (t : Token) : List (Token × Nat) → List (Token × Nat)
  | [] => [(t, 1)]
  | (u, k) :: rs => if t = u then (t, k + 1) :: rs else (t, 1) :: (u, k) :: rs

theorem tokenRuns_cons (t : Token) (ts : List Token) : tokenRuns (t :: ts) = consRun t (tokenRuns ts) := rfl

theorem consRun_same (t : Token) (k : Nat) (rs : List (Token × Nat)) :
    consRun t ((t, k) :: rs) = (t, k + 1) :: rs := if_pos rfl

theorem consRun_other {t : Token} {rs : List (Token × Nat)} (h : rs.head?.map Prod.fst ≠ some t) :
    consRun t rs = (t, 1) :: rs := by
  rcases rs with _ | ⟨⟨u, k⟩, rs⟩
  · rfl
  · exact if_neg fun e => h (congrArg some e.symm)

/-- The first run is a run of the first token. -/
theorem tokenRuns_head (ts : List Token) : (tokenRuns ts).head?.map Prod.fst = ts.head? := by
  cases ts with
  | nil => rfl
  | cons t ts =>
    rw [tokenRuns_cons]
    by_cases h : (tokenRuns ts).head?.map Prod.fst = some t
    · obtain ⟨⟨u, k⟩, hrun, rfl⟩ := Option.map_eq_some_iff.mp h
      obtain ⟨rs, hrs⟩ := List.head?_eq_some_iff.mp hrun
      rw [hrs, consRun_same]; rfl
    · rw [consRun_other h]; rfl

/-- No run is empty. -/
theorem tokenRuns_pos (ts : List Token) : ∀ p ∈ tokenRuns ts, 1 ≤ p.2 := by
  induction ts with
  | nil => exact fun p hp => nomatch hp
  | cons t ts ih =>
    rw [tokenRuns_cons]
    rcases hr : tokenRuns ts with _ | ⟨⟨u, k⟩, rs⟩
    · simp [consRun]
    · rw [hr] at ih
      by_cases htu : t = u
      · subst htu
        rw [consRun_same]
        exact List.forall_mem_cons.mpr ⟨Nat.le_add_left 1 k, (List.forall_mem_cons.mp ih).2⟩
      · rw [consRun_other (by simpa using Ne.symm htu)]
        exact List.forall_mem_cons.mpr ⟨le_rfl, ih⟩

/-- A sequence that begins with `t` has a first run of `t`. -/
theorem tokenRuns_of_head {t : Token} {ts : List Token} (h : ts.head? = some t) :
    ∃ k rs, 1 ≤ k ∧ tokenRuns ts = (t, k) :: rs := by
  rw [← tokenRuns_head] at h
  obtain ⟨⟨u, k⟩, hrun, rfl⟩ := Option.map_eq_some_iff.mp h
  obtain ⟨rs, hrs⟩ := List.head?_eq_some_iff.mp hrun
  exact ⟨k, rs, tokenRuns_pos ts (u, k) (hrs ▸ List.mem_cons_self), hrs⟩

theorem tokenRuns_cons_of_head_ne {t : Token} {ts : List Token} (h : ts.head? ≠ some t) :
    tokenRuns (t :: ts) = (t, 1) :: tokenRuns ts := by
  rw [tokenRuns_cons, consRun_other (tokenRuns_head ts ▸ h)]

/-- Equal tokens in front of a run lengthen it. -/
theorem tokenRuns_replicate_append_same {t : Token} {ts : List Token} {k : Nat} {rs : List (Token × Nat)}
    (h : tokenRuns ts = (t, k) :: rs) (c : Nat) : tokenRuns (List.replicate c t ++ ts) = (t, k + c) :: rs := by
  induction c with
  | zero => exact h
  | succ c ih => rw [List.replicate_succ, List.cons_append, tokenRuns_cons, ih, consRun_same, Nat.add_assoc]

/-- Equal tokens in front of another token are a run of their own. -/
theorem tokenRuns_replicate_append_other {t : Token} {ts : List Token} {c : Nat} (hc : 1 ≤ c)
    (h : ts.head? ≠ some t) : tokenRuns (List.replicate c t ++ ts) = (t, c) :: tokenRuns ts := by
  obtain ⟨c, rfl⟩ := Nat.exists_eq_add_of_le' hc
  rw [List.replicate_succ', List.append_assoc, List.singleton_append,
    tokenRuns_replicate_append_same (tokenRuns_cons_of_head_ne h), Nat.add_comm 1 c]

/-! ### The instructions of a run -/

section Run
variable {t : Token}

theorem expandRun_of_nonrep {k : NonRepKind} (h : t.kind = .nonrep k) (n : Nat) :
    expandRun t n = List.replicate n (Instr.ofOp (.nonrep k) 0) := by
  rw [expandRun, h]

variable {k : RepKind} (h : t.kind = .rep k) {n : Nat}
include h

theorem expandRun_of_rep (n : Nat) :
    expandRun t n = List.replicate ((n - 1) / 63) (Instr.ofOp (.rep k) 63) ++
      [Instr.ofOp (.rep k) (BitVec.ofNat 6 (n - 63 * ((n - 1) / 63)))] := by
  rw [expandRun, h]

theorem expandRun_of_le (h1 : 1 ≤ n) (h63 : n ≤ 63) : expandRun t n = [Instr.ofOp (.rep k) (BitVec.ofNat 6 n)] := by
  have hq : (n - 1) / 63 = 0 := Nat.div_eq_of_lt (by omega)
  rw [expandRun_of_rep h, hq]
  rfl

/-- A long run begins with an instruction of count 63. -/
theorem expandRun_add (h1 : 1 ≤ n) : expandRun t (n + 63) = Instr.ofOp (.rep k) 63 :: expandRun t n := by
  have hq : (n + 63 - 1) / 63 = (n - 1) / 63 + 1 := by omega
  have hr : n + 63 - 63 * ((n - 1) / 63 + 1) = n - 63 * ((n - 1) / 63) := by omega
  rw [expandRun_of_rep h, expandRun_of_rep h, hq, hr, List.replicate_succ, List.cons_append]

theorem expandRun_length (h1 : 1 ≤ n) : (expandRun t n).length = (n + 62) / 63 := by
  rw [expandRun_of_rep h, List.length_append, List.length_replicate, List.length_singleton]
  omega

/-- R48: the remainder of a run is in `[1, 63]`. -/
theorem expandRun_rep_wf (h1 : 1 ≤ n) : ∀ i ∈ expandRun t n, i.wf = true := by
  rw [expandRun_of_rep h]
  intro i hi
  rcases List.mem_append.mp hi with hi | hi
  · rw [List.eq_of_mem_replicate hi]
    exact Instr.wf_ofOp_rep k (by decide)
  · rw [List.mem_singleton.mp hi]
    refine Instr.wf_ofOp_rep k fun h0 => ?_
    have h0 := congrArg BitVec.toNat h0
    rw [BitVec.toNat_ofNat, Nat.mod_eq_of_lt (by omega)] at h0
    change _ = 0 at h0
    omega

end Run

/-! ### The expansion from the front -/

theorem expandTokens_of_runs {ts : List Token} {t : Token} {k : Nat} {rs : List (Token × Nat)}
    (h : tokenRuns ts = (t, k) :: rs) :
    expandTokens ts = expandRun t k ++ rs.flatMap fun p => expandRun p.1 p.2 := by
  rw [expandTokens, h, List.flatMap_cons]

/-- A non-repeatable token is one instruction. -/
theorem expandTokens_cons_nonrep {t : Token} {k : NonRepKind} (h : t.kind = .nonrep k) (ts : List Token) :
    expandTokens (t :: ts) = Instr.ofOp (.nonrep k) 0 :: expandTokens ts := by
  by_cases hd : ts.head? = some t
  · obtain ⟨n, rs, -, hrs⟩ := tokenRuns_of_head hd
    have hrs' : tokenRuns (t :: ts) = (t, n + 1) :: rs := tokenRuns_replicate_append_same hrs 1
    rw [expandTokens_of_runs hrs', expandTokens_of_runs hrs, expandRun_of_nonrep h,
      expandRun_of_nonrep h, List.replicate_succ, List.cons_append]
  · rw [expandTokens_of_runs (tokenRuns_cons_of_head_ne hd), expandRun_of_nonrep h]
    rfl

/-- Equal repeatable tokens in front, at most 63 of them, are one instruction: where they end their run, or where they
are 63. -/
theorem expandTokens_replicate_append {t : Token} {k : RepKind} (h : t.kind = .rep k) {c : Nat} (h1 : 1 ≤ c)
    (h63 : c ≤ 63) {ts : List Token} (hts : ts.head? = some t → c = 63) :
    expandTokens (List.replicate c t ++ ts) = Instr.ofOp (.rep k) (BitVec.ofNat 6 c) :: expandTokens ts := by
  by_cases hd : ts.head? = some t
  · obtain ⟨n, rs, hn, hrs⟩ := tokenRuns_of_head hd
    obtain rfl := hts hd
    rw [expandTokens_of_runs (tokenRuns_replicate_append_same hrs 63), expandTokens_of_runs hrs, expandRun_add h hn]
    rfl
  · rw [expandTokens_of_runs (tokenRuns_replicate_append_other h1 hd), expandRun_of_le h h1 h63]
    rfl

/-- Settles O51: run by run; equal tokens alone are one run. -/
theorem expansionIsWellFormed : Obligations.ExpansionIsWellFormed := by
  refine ⟨fun src i hi => ?_, fun t r k hr hk => ?_⟩
  · obtain ⟨⟨t, n⟩, hp, hi⟩ := List.mem_flatMap.mp hi
    have hn := tokenRuns_pos src _ hp
    rcases hk : t.kind with k | k
    · exact expandRun_rep_wf hk hn i hi
    · rw [expandRun_of_nonrep hk] at hi
      rw [List.eq_of_mem_replicate hi]
      exact Instr.wf_ofOp_nonrep k 0
  · have hruns := tokenRuns_replicate_append_other (ts := []) (t := t) hk (by simp)
    rw [List.append_nil] at hruns
    rw [expandTokens_of_runs hruns, List.length_append, expandRun_length hr hk]
    rfl

end Sys2Proof.Machine
end

section
/-! PROOFS. The encoder and the load driver (spec/41_rle_encoder.md R81 to R86): every head event by what it leaves to be
emitted, and the load by that and the bytes already emitted, whose sum stays the expansion. -/

namespace Sys2Proof.Machine

/-! ### The end of input (R81) -/

section End
variable {m : CodeMap} {r : RleState} {p : RepKind}

theorem RleState.event_of_nil (hs : r.src = []) : r.event m = r.onEnd m := by
  simp [RleState.event, hs]

theorem RleState.onEnd_pendNone (hp : r.pendKind = none) : r.onEnd m = (.done, r.clearPend) := by
  rw [onEnd, flush_of_pendNone hp]

theorem RleState.onEnd_pending_full (hp : r.pendKind = some p) (hw : r.wr = r.cap) : r.onEnd m = (.rewind, r) := by
  rw [onEnd, flush_of_pendSome hp, emit_of_full hw]

theorem RleState.onEnd_pending_room (hp : r.pendKind = some p) (hw : r.wr ≠ r.cap) :
    r.onEnd m = (.done, { r with
      buf := r.buf ++ [encodeFields m (.rep p) (BitVec.ofNat 6 r.pendCnt)], wr := r.wr + 1,
      pendKind := none, pendCnt := 0 }) := by
  rw [onEnd, flush_of_pendSome hp, emit_of_room hw]
  rfl

end End

/-- Settles O47. -/
theorem rleEndOfInput : Obligations.RleEndOfInput := by
  refine fun m r hs => ⟨fun hp => ?_, fun p hp => ⟨fun hw => ?_, fun hw => ?_⟩⟩
  · exact (RleState.event_of_nil hs).trans (RleState.onEnd_pendNone hp)
  · exact (RleState.event_of_nil hs).trans (RleState.onEnd_pending_full hp hw)
  · exact (RleState.event_of_nil hs).trans (RleState.onEnd_pending_room hp hw)

/-! ### What is still to be emitted -/

/-- The token of a repeatable kind (R52). -/
def RepKind.token : RepKind → Token
  | .mvr => .gt
  | .mvl => .lt
  | .inc => .plus
  | .dec => .minus

theorem RepKind.kind_token (k : RepKind) : (RepKind.token k).kind = .rep k := by cases k <;> rfl

theorem eq_token_of_kind {t : Token} {k : RepKind} (h : t.kind = .rep k) : t = RepKind.token k := by
  cases t <;> cases h <;> rfl

/-- The tokens consumed and not yet emitted: the pending run. -/
def RleState.pendTokens (r : RleState) : List Token :=
  match r.pendKind with
  | none => []
  | some k => List.replicate r.pendCnt (RepKind.token k)

/-- The bytes still to be emitted: the expansion of the pending run and of the source. -/
def RleState.toEmit (m : CodeMap) (r : RleState) : List Byte :=
  (expandTokens (r.pendTokens ++ r.src)).map (encode m)

section ToEmit
variable {m : CodeMap} {r : RleState}

theorem RleState.toEmit_pendNone (hp : r.pendKind = none) : r.toEmit m = (expandTokens r.src).map (encode m) := by
  rw [toEmit, pendTokens, hp, List.nil_append]

theorem RleState.toEmit_pendSome {k : RepKind} (hp : r.pendKind = some k) :
    r.toEmit m = (expandTokens (List.replicate r.pendCnt (RepKind.token k) ++ r.src)).map (encode m) := by
  rw [toEmit, pendTokens, hp]

/-- The byte of a pending run comes first, where the token at the head cannot join the run. -/
theorem RleState.toEmit_flush (h : RleInv r) {p : RepKind} (hp : r.pendKind = some p)
    (hsrc : r.src.head? = some (RepKind.token p) → r.pendCnt = 63) :
    r.toEmit m = encodeFields m (.rep p) (BitVec.ofNat 6 r.pendCnt) :: (expandTokens r.src).map (encode m) := by
  obtain ⟨h1, h63⟩ := h.pendSome (by rw [hp]; simp)
  rw [toEmit_pendSome hp, expandTokens_replicate_append (RepKind.kind_token p) h1 h63 hsrc, List.map_cons,
    encode_ofOp_rep, encodeFields]

/-- A token that cannot join the pending run is of another kind, or the run is full. -/
theorem RleState.pendCnt_of_head (h : RleInv r) {p : RepKind} (hp : r.pendKind = some p) {t : Token}
    {rest : List Token} (hs : r.src = t :: rest) (hn : t.kind = .rep p → 63 ≤ r.pendCnt) :
    r.src.head? = some (RepKind.token p) → r.pendCnt = 63 := by
  rw [hs, List.head?_cons, Option.some.injEq]
  rintro rfl
  exact Nat.le_antisymm (h.pendSome (by rw [hp]; simp)).2 (hn (RepKind.kind_token p))

/-- The byte of a non-repeatable token comes first. -/
theorem map_expandTokens_cons_nonrep {t : Token} {k : NonRepKind} (h : t.kind = .nonrep k) (ts : List Token) :
    (expandTokens (t :: ts)).map (encode m) =
      encodeFields m (.nonrep k) 0 :: (expandTokens ts).map (encode m) := by
  rw [expandTokens_cons_nonrep h, List.map_cons, encode_ofOp_nonrep, encodeFields]

end ToEmit

/-! ### The head event -/

/-- What a head event comes to, by its verdict: the bytes emitted and those to be emitted stay the same in sum. -/
inductive EventTo (m : CodeMap) (r : RleState) : RleVerdict → RleState → Prop where
  | more {r1 : RleState} (src : r.src.length = r1.src.length + 1)
      (out : r1.buf ++ r1.toEmit m = r.buf ++ r.toEmit m) (caps : r1.laterCaps = r.laterCaps) : EventTo m r .more r1
  | done {r1 : RleState} (src : r.src = []) (src1 : r1.src = []) (pend : r1.pendKind = none)
      (out : r1.buf = r.buf ++ r.toEmit m) : EventTo m r .done r1
  | rewind {r1 : RleState} (full : r1.wr = r1.cap) (src : r1.src = r.src)
      (out : r1.buf ++ r1.toEmit m = r.buf ++ r.toEmit m) (caps : r1.laterCaps = r.laterCaps)
      (progress : (r.wr = r.cap ∧ r1.pendKind = r.pendKind) ∨ (r.pendKind ≠ none ∧ r1.pendKind = none)) :
      EventTo m r .rewind r1

section Event
variable {m : CodeMap} {r : RleState} (h : RleInv r)
include h

theorem eventTo_end (hs : r.src = []) : EventTo m r (r.event m).1 (r.event m).2 := by
  rw [RleState.event_of_nil hs]
  rcases hp : r.pendKind with _ | p
  · rw [RleState.onEnd_pendNone hp]
    refine .done hs hs rfl ?_
    rw [RleState.toEmit_pendNone hp, hs]
    exact (List.append_nil _).symm
  · by_cases hw : r.wr = r.cap
    · rw [RleState.onEnd_pending_full hp hw]
      exact .rewind hw rfl rfl rfl (.inl ⟨hw, rfl⟩)
    · rw [RleState.onEnd_pending_room hp hw]
      refine .done hs hs rfl ?_
      rw [RleState.toEmit_flush h hp (by rw [hs]; exact fun e => nomatch e), hs]
      rfl

theorem eventTo_rep {t : Token} {rest : List Token} {k : RepKind} (hs : r.src = t :: rest) (hk : t.kind = .rep k) :
    EventTo m r (r.event m).1 (r.event m).2 := by
  obtain rfl := eq_token_of_kind hk
  rcases hp : r.pendKind with _ | p
  · rw [RleState.event_of_rep hs hk, RleState.onRep_of_pendNone hp]
    refine .more (by simp [RleState.consume, RleState.startRun, hs]) ?_ rfl
    rw [RleState.toEmit_pendNone hp, RleState.toEmit_pendSome (k := k) rfl, hs]
    simp [RleState.consume, RleState.startRun, hs]
  · by_cases hn : p = k ∧ r.pendCnt < 63
    · obtain ⟨rfl, hc⟩ := hn
      have hp1 : ({ r with pendCnt := r.pendCnt + 1, src := rest } : RleState).pendKind = some p := hp
      rw [rleSameKindCounts m r _ rest p hs hk hp hc]
      refine .more (by simp [hs]) ?_ rfl
      rw [RleState.toEmit_pendSome hp, RleState.toEmit_pendSome hp1, hs, List.replicate_succ', List.append_assoc]
      rfl
    · by_cases hw : r.wr = r.cap
      · rw [RleState.event_of_rep hs hk, RleState.onRep_pending_full hp hn hw]
        exact .rewind hw rfl rfl rfl (.inl ⟨hw, rfl⟩)
      · rw [RleState.event_of_rep hs hk, RleState.onRep_pending_room hp hn hw]
        have hhead := RleState.pendCnt_of_head h hp hs fun e => by
          rw [RepKind.kind_token] at e
          cases e
          exact Nat.le_of_not_lt fun hc => hn ⟨rfl, hc⟩
        refine .more (by simp [hs]) ?_ rfl
        rw [RleState.toEmit_flush h hp hhead, RleState.toEmit_pendSome (k := k) rfl, hs]
        simp

theorem eventTo_nonrep {t : Token} {rest : List Token} {k : NonRepKind} (hs : r.src = t :: rest)
    (hk : t.kind = .nonrep k) : EventTo m r (r.event m).1 (r.event m).2 := by
  rw [RleState.event_of_nonrep hs hk]
  rcases hp : r.pendKind with _ | p
  · by_cases hw : r.wr = r.cap
    · rw [RleState.onNonRep_pendNone_full hp hw]
      refine .rewind hw rfl ?_ rfl (.inl ⟨hw, hp.symm⟩)
      rw [RleState.toEmit_pendNone hp, RleState.toEmit_pendNone rfl]
      rfl
    · rw [RleState.onNonRep_pendNone_room hp hw]
      refine .more (by simp [hs]) ?_ rfl
      rw [RleState.toEmit_pendNone hp, RleState.toEmit_pendNone rfl, hs, map_expandTokens_cons_nonrep hk]
      simp
  · have hhead := RleState.pendCnt_of_head h hp hs fun e => nomatch hk.symm.trans e
    by_cases hw : r.wr = r.cap
    · rw [RleState.onNonRep_pending_full hp hw]
      exact .rewind hw rfl rfl rfl (.inl ⟨hw, rfl⟩)
    · by_cases hw1 : r.wr + 1 = r.cap
      · rw [RleState.onNonRep_pending_one hp hw1]
        refine .rewind hw1 rfl ?_ rfl (.inr ⟨by rw [hp]; simp, rfl⟩)
        rw [RleState.toEmit_flush h hp hhead, RleState.toEmit_pendNone rfl]
        simp
      · rw [RleState.onNonRep_pending_room hp hw hw1]
        refine .more (by simp [hs]) ?_ rfl
        rw [RleState.toEmit_flush h hp hhead, RleState.toEmit_pendNone rfl, hs, map_expandTokens_cons_nonrep hk]
        simp

/-- A head event, by what stands at the head. -/
theorem RleInv.eventTo : EventTo m r (r.event m).1 (r.event m).2 := by
  rcases hs : r.src with _ | ⟨t, rest⟩
  · exact eventTo_end h hs
  · rcases hk : t.kind with k | k
    · exact eventTo_rep h hs hk
    · exact eventTo_nonrep h hs hk

end Event

/-- Settles O48: the invariants hold after the event, and its verdict says the rest. -/
theorem rleKeepsItsInvariants : Obligations.RleKeepsItsInvariants := by
  intro m r r1 v h he
  have hinv := h.event (m := m)
  have hto := h.eventTo (m := m)
  rw [he] at hinv hto
  refine ⟨hinv, ?_⟩
  cases hto with
  | more src _ _ => exact ⟨nofun, fun _ => src, nofun⟩
  | done src src1 pend _ => exact ⟨nofun, nofun, fun _ => ⟨src, src1, pend⟩⟩
  | rewind full src _ _ _ => exact ⟨fun _ => ⟨full, src⟩, nofun, nofun⟩

/-! ### The load driver (R86) -/

/-- `s` in the encoder's part of a load, with the program so far. -/
def State.inLoad (s : State) (prog : List Byte) (r : RleState) : State :=
  { s with prog := prog, phase := .compiling r }

/-- What a load comes to whose bytes are `out`: the pairing pass begins, or `P_MAX` refuses them. -/
def loadOutcome (s : State) (out : List Byte) : Result :=
  if out.length ≤ s.cfg.pMax then
    .next { s with prog := out, jt := [], phase := .pairing { stack := [], scan := 0 } }
  else .refused .programTooLong

theorem loadOutcome_of_gt {s : State} {out : List Byte} (h : s.cfg.pMax < out.length) :
    loadOutcome s out = .refused .programTooLong :=
  if_neg (Nat.not_le.mpr h)

/-- Every buffer of the load has room for a byte, or the encoder could not go on (R75). -/
structure LoadInv (r : RleState) : Prop where
  inv : RleInv r
  later : ∀ c ∈ r.laterCaps, 1 ≤ c

section Again
variable {r : RleState}

theorem LoadInv.nextInvocation (h : LoadInv r) : LoadInv r.nextInvocation := by
  rcases hl : r.laterCaps with _ | ⟨c, cs⟩
  · rw [RleState.nextInvocation_of_nil hl]
    exact ⟨h.inv.invocation h.inv.capacity [], fun c hc => nomatch hc⟩
  · rw [RleState.nextInvocation_of_cons hl]
    have hcs := List.forall_mem_cons.mp (hl ▸ h.later)
    exact ⟨h.inv.invocation hcs.1 cs, hcs.2⟩

theorem LoadInv.invokeAgain (h : LoadInv r) (s : State) :
    invokeAgain r s = .next { s with phase := .compiling r.nextInvocation } := by
  rcases invokeAgain_cases r s with ⟨⟨cs, hl⟩, -⟩ | ⟨-, hi⟩
  · exact absurd (h.later 0 (hl ▸ List.mem_cons_self)) (by decide)
  · exact hi

/-- A new invocation has an empty buffer and keeps the source and the pending run. -/
theorem RleState.nextInvocation_eq (r : RleState) :
    ∃ cap later, r.nextInvocation = r.invocation cap later := by
  rcases hl : r.laterCaps with _ | ⟨c, cs⟩
  · exact ⟨_, _, nextInvocation_of_nil hl⟩
  · exact ⟨_, _, nextInvocation_of_cons hl⟩

end Again

/-! ### The work left of a load -/

/-- What a load has still to do: tokens to consume, a run to flush, a full buffer to return. -/
def RleState.work (r : RleState) : Nat :=
  4 * r.src.length + (if r.pendKind = none then 0 else 2) + (if r.wr = r.cap then 1 else 0)

section Work
variable {m : CodeMap} {r r1 : RleState}

/-- A token consumed outweighs a run begun and a buffer filled. -/
theorem RleState.work_lt_of_more (hsrc : r.src.length = r1.src.length + 1) : r1.work < r.work := by
  unfold work
  split <;> split <;> omega

/-- A return either had a full buffer to hand over, or flushed a run. -/
theorem RleState.work_lt_of_rewind (h : RleInv r1.nextInvocation) (hsrc : r1.src = r.src)
    (hp : (r.wr = r.cap ∧ r1.pendKind = r.pendKind) ∨ (r.pendKind ≠ none ∧ r1.pendKind = none)) :
    r1.nextInvocation.work < r.work := by
  obtain ⟨cap, later, heq⟩ := r1.nextInvocation_eq
  rw [heq] at h ⊢
  have hroom : (r1.invocation cap later).wr ≠ (r1.invocation cap later).cap := Nat.ne_of_lt h.capacity
  unfold work
  rw [if_neg hroom]
  show 4 * r1.src.length + (if r1.pendKind = none then 0 else 2) + 0 < _
  rw [hsrc]
  rcases hp with ⟨hw, hk⟩ | ⟨hk, hk1⟩
  · rw [hk, if_pos hw]; omega
  · rw [if_pos hk1, if_neg hk]; omega

end Work

/-! ### The load as a whole -/

section Load
variable {s : State} {r r1 : RleState}

theorem rleStep_of_more (h : r.event s.cfg.codeMap = (.more, r1)) :
    rleStep r s = .next { s with phase := .compiling r1 } := by
  rw [rleStep, h]

theorem rleStep_of_done (h : r.event s.cfg.codeMap = (.done, r1)) :
    rleStep r s = loadOutcome s (s.prog ++ r1.buf) := by
  rw [rleStep, h, loadOutcome, List.length_append]
  rfl

theorem rleStep_of_rewind_fits (h : r.event s.cfg.codeMap = (.rewind, r1)) (h1 : LoadInv r1)
    (hlen : s.prog.length + r1.buf.length ≤ s.cfg.pMax) :
    rleStep r s = .next (s.inLoad (s.prog ++ r1.buf) r1.nextInvocation) := by
  rw [rleStep, h]
  exact (if_pos hlen).trans (h1.invokeAgain _)

theorem rleStep_of_rewind_overlong (h : r.event s.cfg.codeMap = (.rewind, r1))
    (hlen : s.cfg.pMax < s.prog.length + r1.buf.length) : rleStep r s = .refused .programTooLong := by
  rw [rleStep, h]
  exact if_neg (Nat.not_le.mpr hlen)

variable (hc : s.cmd = none) (prog : List Byte)
include hc

/-! The same at a state in the encoder's part of a load. -/

theorem step_inLoad_of_more (h : r.event s.cfg.codeMap = (.more, r1)) :
    step (s.inLoad prog r) = .next (s.inLoad prog r1) :=
  (step_of_compiling (s := s.inLoad prog r) hc rfl).trans (rleStep_of_more h)

theorem step_inLoad_of_done (h : r.event s.cfg.codeMap = (.done, r1)) :
    step (s.inLoad prog r) = loadOutcome s (prog ++ r1.buf) :=
  (step_of_compiling (s := s.inLoad prog r) hc rfl).trans (rleStep_of_done h)

theorem step_inLoad_of_rewind_fits (h : r.event s.cfg.codeMap = (.rewind, r1)) (h1 : LoadInv r1)
    (hlen : prog.length + r1.buf.length ≤ s.cfg.pMax) :
    step (s.inLoad prog r) = .next (s.inLoad (prog ++ r1.buf) r1.nextInvocation) :=
  (step_of_compiling (s := s.inLoad prog r) hc rfl).trans (rleStep_of_rewind_fits h h1 hlen)

theorem step_inLoad_of_rewind_overlong (h : r.event s.cfg.codeMap = (.rewind, r1))
    (hlen : s.cfg.pMax < prog.length + r1.buf.length) : step (s.inLoad prog r) = .refused .programTooLong :=
  (step_of_compiling (s := s.inLoad prog r) hc rfl).trans (rleStep_of_rewind_overlong h hlen)

/-- R85: the bytes of a load are those in the program, those in the buffer and those still to be emitted. -/
theorem steps_inLoad (r : RleState) (h : LoadInv r) :
    ∃ k, steps k (s.inLoad prog r) = loadOutcome s (prog ++ (r.buf ++ r.toEmit s.cfg.codeMap)) := by
  induction hn : r.work using Nat.strong_induction_on generalizing prog r with
  | _ n ih =>
    obtain ⟨v, r1, he⟩ : ∃ v r1, r.event s.cfg.codeMap = (v, r1) := ⟨_, _, rfl⟩
    have hinv := h.inv.event (m := s.cfg.codeMap)
    have hto := h.inv.eventTo (m := s.cfg.codeMap)
    rw [he] at hinv hto
    cases hto with
    | more src out caps =>
      obtain ⟨k, hk⟩ := ih _ (hn ▸ RleState.work_lt_of_more src) prog r1 ⟨hinv, caps ▸ h.later⟩ rfl
      refine ⟨k + 1, ?_⟩
      rw [steps, step_inLoad_of_more hc prog he, andThen_next, ← out]
      exact hk
    | done src src1 pend out =>
      refine ⟨1, ?_⟩
      rw [steps_one, step_inLoad_of_done hc prog he, ← out]
    | rewind full src out caps progress =>
      have h1 : LoadInv r1 := ⟨hinv, caps ▸ h.later⟩
      rw [← out]
      by_cases hlen : prog.length + r1.buf.length ≤ s.cfg.pMax
      · have hlt := RleState.work_lt_of_rewind h1.nextInvocation.inv src progress
        obtain ⟨k, hk⟩ := ih _ (hn ▸ hlt) (prog ++ r1.buf) r1.nextInvocation h1.nextInvocation rfl
        obtain ⟨cap, later, heq⟩ := r1.nextInvocation_eq
        refine ⟨k + 1, ?_⟩
        rw [steps, step_inLoad_of_rewind_fits hc prog he h1 hlen, andThen_next, ← List.append_assoc]
        rw [heq] at hk ⊢
        exact hk
      · refine ⟨1, ?_⟩
        rw [steps_one, step_inLoad_of_rewind_overlong hc prog he (Nat.not_le.mp hlen), loadOutcome_of_gt]
        simp only [List.length_append]
        omega

end Load

/-- The state a load starts from is in the encoder's part, with nothing emitted. -/
theorem steps_load {s : State} {src : List Token} {cap : Nat} {later : List Nat} (hp : s.phase = .constructed)
    (hst : s.status ≠ .running) (hc : s.cmd = some (.load src cap later)) (hcap : 1 ≤ cap)
    (hlater : ∀ c ∈ later, 1 ≤ c) :
    ∃ k, steps k s = loadOutcome { s with cmd := none } ((expandTokens src).map (encode s.cfg.codeMap)) := by
  have hinv : LoadInv (RleState.start src cap later) := ⟨RleInv.start src hcap later, hlater⟩
  obtain ⟨k, hk⟩ := steps_inLoad (s := { s with jt := [], cmd := none }) rfl [] _ hinv
  refine ⟨k + 1, ?_⟩
  rw [steps, step_of_first_load hst hc hp, beginLoad_of_pos hcap, andThen_next]
  exact hk

/-- Settles O49: the load as a whole, with its bytes within `P_MAX`. -/
theorem loadCompilesTheExpansion : Obligations.LoadCompilesTheExpansion := by
  intro s src cap later hp hst hc hcap hlater hlen
  obtain ⟨k, hk⟩ := steps_load hp hst hc hcap hlater
  refine ⟨k, hk.trans (if_pos ?_)⟩
  rwa [List.length_map]

/-- Settles O50: the load as a whole, with its bytes beyond `P_MAX`. -/
theorem overlongProgramRefused : Obligations.OverlongProgramRefused := by
  intro s src cap later hp hst hc hcap hlater hlen
  obtain ⟨k, hk⟩ := steps_load hp hst hc hcap hlater
  refine ⟨k, hk.trans (loadOutcome_of_gt ?_)⟩
  rwa [List.length_map]

end Sys2Proof.Machine
end
